-- ==== Sys2Proof/Word.lean ====
section
/-! DEFINITION. The machine's word and byte (spec/00_scope.md R5, R8). -/

namespace Sys2Proof

/-- A word: an unsigned 32-bit integer (R8). Registers, pc, segment ids, offsets, lengths and the
words of a segment are all words. -/
abbrev Word := BitVec 32

/-- A byte of the input or output stream, 0 to 255 (R58, R60). -/
abbrev Byte := BitVec 8

end Sys2Proof
end

