-- ==== Sys2Proof/Syntax.lean ====
section
/-! DEFINITION. The instructions as syntax: the registers and one constructor per row of
spec/opcode_table.json (spec/30_encoding.md R76, R82). -/

namespace Sys2Proof

/-- The eight general registers `x[0]` to `x[7]` (10_state.md R20). -/
inductive Reg where
  | x0 | x1 | x2 | x3 | x4 | x5 | x6 | x7
deriving DecidableEq, Repr

/-- The rows of the opcode table. A constructor carries the operand fields its row uses, in the order
of R82, and no field its row ignores (R77, R78). -/
inductive Instr where
  /-- CMOV xA, xB, xC (opcode 0, R100). -/
  | cmov (a b c : Reg)
  /-- AIDX xA, xB, xC (opcode 1, R120). -/
  | aidx (a b c : Reg)
  /-- AMEND xA, xB, xC (opcode 2, R121). -/
  | amend (a b c : Reg)
  /-- ADD xA, xB, xC (opcode 3, R101). -/
  | add (a b c : Reg)
  /-- MUL xA, xB, xC (opcode 4, R102). -/
  | mul (a b c : Reg)
  /-- DIV xA, xB, xC (opcode 5, R103). -/
  | div (a b c : Reg)
  /-- NAND xA, xB, xC (opcode 6, R104). -/
  | nand (a b c : Reg)
  /-- HALT (opcode 7, R140). -/
  | halt
  /-- ALLOC xB, xC (opcode 8, R122). -/
  | alloc (b c : Reg)
  /-- FREE xC (opcode 9, R123). -/
  | free (c : Reg)
  /-- OUT xC (opcode 10, R141). -/
  | out (c : Reg)
  /-- IN xC (opcode 11, R143). -/
  | inp (c : Reg)
  /-- LOADP xB, xC (opcode 12, R144). -/
  | loadp (b c : Reg)
  /-- LDI xA, value (opcode 13, R105); the value has 25 bits (R73). -/
  | ldi (a : Reg) (value : BitVec 25)
  /-- Opcode 14, undefined (R145). -/
  | undef14
  /-- Opcode 15, undefined (R145). -/
  | undef15
deriving DecidableEq, Repr

end Sys2Proof
end

