-- ==== Sys2Proof/WellFormed.lean ====
section
/-! DEFINITION. Which terms are well formed: the instructions the machine has (spec/30_encoding.md
R79) and the program lengths a run may start with (spec/70_reset_and_hazards.md R193). The bounds on
register indices and on the immediate are in the types of `Instr` (R20, R73). -/

namespace Sys2Proof

/-- One of the 14 defined instructions: a word with opcode 14 or 15 "is not an instruction" (R79). -/
def Instr.wellFormed : Instr → Bool
  | .cmov _ _ _ | .aidx _ _ _ | .amend _ _ _ | .add _ _ _ | .mul _ _ _ | .div _ _ _ | .nand _ _ _
  | .halt | .alloc _ _ | .free _ | .out _ | .inp _ | .loadp _ _ | .ldi _ _ => true
  | .undef14 | .undef15 => false

/-- `1 <= L0 <= 2^32 - 1`: the number of words a program may have at launch (R193, R6, D7). -/
def launchLengthOk (n : Nat) : Bool := decide (1 ≤ n ∧ n ≤ 2 ^ 32 - 1)

end Sys2Proof
end

