-- ==== Sys2Proof/Decode.lean ====
section
/-! DEFINITION. The decoder (spec/30_encoding.md R71 to R79), the loader's assembly of words from
bytes (spec/20_memory.md R52), and the encoder (R84). -/

namespace Sys2Proof

/-! ## Fields -/

/-- `opcode = w[31:28]` (R71). -/
def opcodeField (w : Word) : BitVec 4 := w.extractLsb' 28 4

/-- `A = w[8:6]` of the standard format (R72). -/
def fieldA (w : Word) : BitVec 3 := w.extractLsb' 6 3

/-- `B = w[5:3]` (R72). -/
def fieldB (w : Word) : BitVec 3 := w.extractLsb' 3 3

/-- `C = w[2:0]` (R72). -/
def fieldC (w : Word) : BitVec 3 := w.extractLsb' 0 3

/-- `A = w[27:25]` of the special format (R73). -/
def fieldASpecial (w : Word) : BitVec 3 := w.extractLsb' 25 3

/-- `value = w[24:0]` of the special format (R73). -/
def fieldValue (w : Word) : BitVec 25 := w.extractLsb' 0 25

/-- The register a 3-bit field names; every value names one (R20). -/
def Reg.ofBits (n : BitVec 3) : Reg :=
  match n.toNat with
  | 0 => .x0 | 1 => .x1 | 2 => .x2 | 3 => .x3 | 4 => .x4 | 5 => .x5 | 6 => .x6 | _ => .x7

/-- The index of a register, 0 to 7 (R20). -/
def Reg.toBits : Reg → BitVec 3
  | .x0 => 0 | .x1 => 1 | .x2 => 2 | .x3 => 3 | .x4 => 4 | .x5 => 5 | .x6 => 6 | .x7 => 7

/-! ## The decoder -/

/-- The instruction a word is. Total: the sixteen rows of R76 partition all words, and the opcode
alone selects the row (R71, R74). -/
def decode (w : Word) : Instr :=
  let a := Reg.ofBits (fieldA w)
  let b := Reg.ofBits (fieldB w)
  let c := Reg.ofBits (fieldC w)
  match (opcodeField w).toNat with
  | 0 => .cmov a b c
  | 1 => .aidx a b c
  | 2 => .amend a b c
  | 3 => .add a b c
  | 4 => .mul a b c
  | 5 => .div a b c
  | 6 => .nand a b c
  | 7 => .halt
  | 8 => .alloc b c
  | 9 => .free c
  | 10 => .out c
  | 11 => .inp c
  | 12 => .loadp b c
  | 13 => .ldi (Reg.ofBits (fieldASpecial w)) (fieldValue w)
  | 14 => .undef14
  | _ => .undef15

/-- Why a run of bytes is not one instruction. -/
inductive DecodeRefusal where
  /-- Raised by `decodeBytes`: an instruction is exactly four bytes of a program file (R52, R70). Safe. -/
  | wrongLength (n : Nat)
deriving DecidableEq, Repr

/-- Four bytes of a program file as a word: big-endian, "byte 0 = bits 31..24, byte 3 = bits 7..0"
(R52). -/
def wordOfBytes (b0 b1 b2 b3 : Byte) : Word := b0 ++ b1 ++ b2 ++ b3

/-- The instruction the bytes of one program-file word are (R52, R70). -/
def decodeBytes : List Byte → Except DecodeRefusal Instr
  | [b0, b1, b2, b3] => .ok (decode (wordOfBytes b0 b1 b2 b3))
  | bytes => .error (.wrongLength bytes.length)

/-- `PROG` from the bytes of a program file, `none` where the length is no multiple of 4, which is a
loader error (R52, R167; a file of no bytes gives the empty list, which `launchLengthOk` refuses). -/
def progOfFile : List Byte → Option (List Word)
  | [] => some []
  | b0 :: b1 :: b2 :: b3 :: rest => (progOfFile rest).map (wordOfBytes b0 b1 b2 b3 :: ·)
  | _ => none

/-- The instruction whose table bits are `w`. The table numbers bits as R7 does and every row has one
word of 32 bits; bits at or above `nbits` are 0. The machine stores a word whole (R52), so the word
is given to the decoder as it stands. A row wider than a word is refused: there is none (R70). -/
def decodeTableWord (nbits w : Nat) : Option Instr :=
  if nbits ≤ 32 then some (decode (BitVec.ofNat 32 (w % 2 ^ nbits))) else none

/-! ## The encoder -/

/-- The opcode number of an instruction (R76). -/
def Instr.opcode : Instr → BitVec 4
  | .cmov _ _ _ => 0
  | .aidx _ _ _ => 1
  | .amend _ _ _ => 2
  | .add _ _ _ => 3
  | .mul _ _ _ => 4
  | .div _ _ _ => 5
  | .nand _ _ _ => 6
  | .halt => 7
  | .alloc _ _ => 8
  | .free _ => 9
  | .out _ => 10
  | .inp _ => 11
  | .loadp _ _ => 12
  | .ldi _ _ => 13
  | .undef14 => 14
  | .undef15 => 15

/-- `(opcode << 28) | (A << 6) | (B << 3) | C`, a canonical standard-format word (R84). -/
def encodeStandard (op : BitVec 4) (a b c : BitVec 3) : Word :=
  op.setWidth 32 <<< 28 ||| a.setWidth 32 <<< 6 ||| b.setWidth 32 <<< 3 ||| c.setWidth 32

/-- `(13 << 28) | (A << 25) | value`, a special-format word (R73, R84). -/
def encodeSpecial (a : BitVec 3) (value : BitVec 25) : Word :=
  (13 : Word) <<< 28 ||| a.setWidth 32 <<< 25 ||| value.setWidth 32

/-- The bits a word of the given opcode uses, the complement of the column "fields ignored" of R76. -/
def usedBits (op : BitVec 4) : Word :=
  match op.toNat with
  | 7 | 14 | 15 => 0xF0000000
  | 8 | 12 => 0xF000003F
  | 9 | 10 | 11 => 0xF0000007
  | 13 => 0xFFFFFFFF
  | _ => 0xF00001FF

/-- The canonical word of an instruction: 0 in every bit the instruction does not use (R84). -/
def encode (i : Instr) : Word :=
  match i with
  | .cmov a b c | .aidx a b c | .amend a b c | .add a b c | .mul a b c | .div a b c | .nand a b c =>
    encodeStandard i.opcode a.toBits b.toBits c.toBits
  | .alloc b c | .loadp b c => encodeStandard i.opcode 0 b.toBits c.toBits
  | .free c | .out c | .inp c => encodeStandard i.opcode 0 0 c.toBits
  | .halt | .undef14 | .undef15 => encodeStandard i.opcode 0 0 0
  | .ldi a value => encodeSpecial a.toBits value

end Sys2Proof
end

