-- ==== Sys2Proof/Config.lean ====
section
/-! DEFINITION. What the spec leaves open and the environment decides (spec/00_scope.md R6): free
values. Each is opaque and has no body, so that no proof can learn anything about it. -/

namespace Sys2Proof

/-- `alloc_choice` and `host_alloc_fails` together (R45, R46; 92_eei_decisions.md D8, D9): the pool's
answer to an `Alloc` transaction, by the number of the draw. `none` is `AllocFail`; `some id` proposes
the id, which the machine takes only where R45 allows it (log 5). -/
opaque Config.allocAnswer : Nat → Option Word

/-- `host_alloc_fails` for the copy of a Load Program (R46, D9): whether `ReplaceZero` answers
`AllocFail`, by the number of the draw (log 6). -/
opaque Config.copyFails : Nat → Bool

/-- `host_write_fails` (R59, D10): whether `OutByte` answers `WriteFail`, by the number of the draw
(log 7). -/
opaque Config.writeFails : Nat → Bool

/-- `EXIT_FAIL` less one (R172, D21): the process result of a failed run is this plus 1, hence some
number other than 0 that nothing here knows (log 15). -/
opaque Config.exitFailLessOne : Nat

end Sys2Proof
end

