-- ==== Sys2Proof/Machine/State.lean ====
section
/-! DEFINITION. The whole state of the machine (spec/10_state.md R20 to R34), the reasons a step can
have no next state, and the state after reset (R33). -/

namespace Sys2Proof.Machine

/-! ## Why a step gives no next state

A fatal failure of the machine is NOT one of these: it is a next state whose `status` is `failed`
(60_exceptions.md R163). -/

/-- The stops of `step`: the places where the spec says that no step is enabled. -/
inductive Fault where
  /-- Raised by `step` when `status` is `Halted`: "from either there is no step" (60_exceptions.md
  R164). Safe: the machine does nothing more (log 10). -/
  | halted
  /-- Raised by `step` when `status` is `Failed` (R164). Safe (log 10). -/
  | failed
  /-- Raised by IN while the host has answered neither a byte nor end-of-stream: the step is "not yet
  enabled" (40_fetch_execute.md R95 (d), 20_memory.md R61). No failure of the machine: the host's
  answer lifts it. Safe (log 4). -/
  | awaitingInput
deriving DecidableEq, Repr

/-- The refusals of `exec`. No instruction of this model answers with one. -/
inductive Refusal where
  /-- The instruction of that mnemonic has no meaning yet; raised by no arm of `exec`. Safe. -/
  | notModelled (mnemonic : String)
deriving DecidableEq, Repr

/-! ## Run status -/

/-- The ten causes of a fatal failure (60_exceptions.md R161). -/
inductive FatalCause where
  | pcOutOfBounds
  | undefinedOpcode
  | inactiveSegment
  | offsetOutOfBounds
  | freeZero
  | freeInactive
  | hostAllocFail
  | divideByZero
  | outputRange
  | outputWriteFail
deriving DecidableEq, Repr

/-- What a fatal failure records (60_exceptions.md R162, 10_state.md R26). -/
structure FatalInfo where
  opcode : BitVec 4
  pc : Word
  id : Word
  off : Word
deriving DecidableEq, Repr

/-- The run status (10_state.md R25). -/
inductive Status where
  | running
  | halted
  | failed (cause : FatalCause) (info : FatalInfo)
deriving DecidableEq, Repr

/-! ## Registers and memory -/

/-- The register file: eight words, none hard-wired (10_state.md R20). -/
structure RegFile where
  x0 : Word
  x1 : Word
  x2 : Word
  x3 : Word
  x4 : Word
  x5 : Word
  x6 : Word
  x7 : Word
deriving DecidableEq, Repr

/-- A segment: its length in words, and its nonzero words by offset, offsets strictly rising and below
the length. An offset below the length that is not listed reads 0: a new segment "reads as n zero
words before any write" (20_memory.md R42 to R44; log 1). -/
structure Segment where
  len : Word
  cells : List (Nat × Word)
deriving DecidableEq, Repr

/-- The segment pool: the active segments by id, ids strictly rising. An id that is not listed is
not active (20_memory.md R41, R66; log 1). -/
abbrev Memory := List (Nat × Segment)

/-! ## The state -/

/-- The whole state. `inputEnded`, `allocAnswers`, `copyFails`, `writeFails` and `draws` are the
model's own: they hold what the host has already answered (logs 4 to 8). -/
structure State where
  /-- General registers (R20). -/
  regs : RegFile
  /-- Program counter, a word offset into segment 0 (R22). -/
  pc : Word
  /-- Run status (R25). -/
  status : Status
  /-- Segment pool (R28). -/
  mem : Memory
  /-- Recycling set, most recently freed first (R28, R31; log 16). -/
  recycling : List Word
  /-- Input bytes the host has given and no IN has consumed (R29, R61). -/
  input : List Byte
  /-- The host has said that no byte follows those of `input` (R61; log 4). -/
  inputEnded : Bool
  /-- `in_eof`: an IN has met the end of the stream (R29). -/
  inEof : Bool
  /-- `out_log`: the bytes emitted, in order (R30). -/
  outLog : List Byte
  /-- The pool's answers to the coming `Alloc` transactions, as far as a run names them (log 5). -/
  allocAnswers : List (Option Word)
  /-- Whether the coming `ReplaceZero` transactions fail, as far as a run names them (log 6). -/
  copyFails : List Bool
  /-- Whether the coming `OutByte` transactions fail, as far as a run names them (log 7). -/
  writeFails : List Bool
  /-- The number of draws made so far (log 8). -/
  draws : Nat
deriving DecidableEq, Repr

/-- The machine right after reset (R33, 70_reset_and_hazards.md R190), before a program is placed in
segment 0: segment 0 is active and empty (log 2), `INPUT` is empty (log 3), no answer of the host is
known (log 8). `State.launch` is reset with `PROG` and `INPUT`. -/
def State.reset : State where
  regs := ⟨0, 0, 0, 0, 0, 0, 0, 0⟩
  pc := 0
  status := .running
  mem := [(0, ⟨0, []⟩)]
  recycling := []
  input := []
  inputEnded := true
  inEof := false
  outLog := []
  allocAnswers := []
  copyFails := []
  writeFails := []
  draws := 0

end Sys2Proof.Machine
end

