-- ==== Sys2Proof/Machine/Ops.lean ====
section
/-! DEFINITION. The named operations over registers, memory, streams and status that the meanings
share, among them taking a fatal failure (spec/60_exceptions.md R160, R163). There is no return from
a failure (R165), so none is defined. -/

namespace Sys2Proof.Machine

/-! ## Sorted lists by key -/

/-- The value listed at key `k`. -/
def sparseLookup {α : Type} (k : Nat) : List (Nat × α) → Option α
  | [] => none
  | (j, v) :: rest => if k = j then some v else sparseLookup k rest

/-- List `v` at key `k`, in place of what was listed there. -/
def sparseInsert {α : Type} (k : Nat) (v : α) : List (Nat × α) → List (Nat × α)
  | [] => [(k, v)]
  | (j, u) :: rest =>
    if k < j then (k, v) :: (j, u) :: rest
    else if k = j then (k, v) :: rest
    else (j, u) :: sparseInsert k v rest

/-- Take key `k` out. -/
def sparseErase {α : Type} (k : Nat) : List (Nat × α) → List (Nat × α)
  | [] => []
  | (j, u) :: rest => if k = j then sparseErase k rest else (j, u) :: sparseErase k rest

/-- The keys rise strictly, from `lo` on. -/
def sparseRising {α : Type} (lo : Nat) : List (Nat × α) → Bool
  | [] => true
  | (j, _) :: rest => decide (lo ≤ j) && sparseRising (j + 1) rest

/-! ## One segment -/

/-- The word at an offset (20_memory.md R44): 0 where none was written. -/
def Segment.read (g : Segment) (off : Word) : Word := (sparseLookup off.toNat g.cells).getD 0

/-- Replace the word at an offset, and nothing else (R44). Writing 0 takes the entry out, so that equal
segments are equal data. -/
def Segment.write (g : Segment) (off v : Word) : Segment :=
  { g with cells := if v = 0 then sparseErase off.toNat g.cells else sparseInsert off.toNat v g.cells }

/-- The canonical form of a segment: offsets strictly rising and below the length, no word 0. -/
def Segment.wf (g : Segment) : Bool :=
  sparseRising 0 g.cells && g.cells.all fun e => decide (e.1 < g.len.toNat) && decide (e.2 ≠ 0)

/-! ## The segment pool -/

/-- The segment of an id, if the id is active (R41). -/
def Memory.segment? (m : Memory) (id : Word) : Option Segment := sparseLookup id.toNat m

/-- `active(id)` (R41). -/
def Memory.active (m : Memory) (id : Word) : Bool := (Memory.segment? m id).isSome

/-- `length(id)`, defined only for an active id (R9, R43). -/
def Memory.length? (m : Memory) (id : Word) : Option Word := (Memory.segment? m id).map (·.len)

/-- `MemRead(id, off)`, defined only when `active(id)` and `off < length(id)` (R44). -/
def Memory.read? (m : Memory) (id off : Word) : Option Word :=
  match Memory.segment? m id with
  | none => none
  | some g => if off < g.len then some (g.read off) else none

/-- `MemWrite(id, off, v)` (R44). The core never issues it where `MemRead` is undefined (R51); there
it changes nothing. -/
def Memory.write (m : Memory) (id off v : Word) : Memory :=
  match Memory.segment? m id with
  | none => m
  | some g => if off < g.len then sparseInsert id.toNat (g.write off v) m else m

/-- The pool's part of `Alloc(n)` answering `Ok(id)`: a fresh segment of `n` zero words (R45). -/
def Memory.alloc (m : Memory) (id n : Word) : Memory := sparseInsert id.toNat ⟨n, []⟩ m

/-- The pool's part of `Free(id)` (R47). -/
def Memory.free (m : Memory) (id : Word) : Memory := sparseErase id.toNat m

/-- The pool's part of `ReplaceZero(src)` answering `Ok`: segment 0 becomes a copy of `src` (R48). -/
def Memory.replaceZero (m : Memory) (src : Word) : Memory :=
  match Memory.segment? m src with
  | none => m
  | some g => sparseInsert 0 g m

/-- The canonical form of the pool: ids strictly rising words, every segment in its canonical form. -/
def Memory.wf (m : Memory) : Bool :=
  sparseRising 0 m && m.all fun e => decide (e.1 < 2 ^ 32) && e.2.wf

/-! ## Registers and pc -/

/-- `get(i)` of the register file (10_state.md R20). -/
def RegFile.get (f : RegFile) : Reg → Word
  | .x0 => f.x0 | .x1 => f.x1 | .x2 => f.x2 | .x3 => f.x3
  | .x4 => f.x4 | .x5 => f.x5 | .x6 => f.x6 | .x7 => f.x7

/-- `set(i, v)` of the register file (R20). -/
def RegFile.set (f : RegFile) (r : Reg) (v : Word) : RegFile :=
  match r with
  | .x0 => { f with x0 := v } | .x1 => { f with x1 := v }
  | .x2 => { f with x2 := v } | .x3 => { f with x3 := v }
  | .x4 => { f with x4 := v } | .x5 => { f with x5 := v }
  | .x6 => { f with x6 := v } | .x7 => { f with x7 := v }

/-- `x[r]` (R9). -/
def State.reg (s : State) (r : Reg) : Word := s.regs.get r

/-- `x[r] <- v` (R9). -/
def State.setReg (s : State) (r : Reg) (v : Word) : State := { s with regs := s.regs.set r v }

/-- `pc <- t` (R9). -/
def State.setPc (s : State) (t : Word) : State := { s with pc := t }

/-- `pc <- pc + 1`, after the operation's own effects (40_fetch_execute.md R94). -/
def State.advance (s : State) : State := s.setPc (s.pc + 1)

/-! ## Status -/

/-- TAKING A FATAL FAILURE: `raise Fatal(cause, (opcode, pc, id, off))` sets the status and does nothing
else; pc stays at the failing instruction and control goes nowhere (60_exceptions.md R160, R163). -/
def State.raiseFatal (s : State) (cause : FatalCause) (opcode : BitVec 4) (id off : Word) : State :=
  { s with status := .failed cause ⟨opcode, s.pc, id, off⟩ }

/-- `status <- Halted` (43_control_io.md R140). -/
def State.halt (s : State) : State := { s with status := .halted }

/-- The cause codes of 60_exceptions.md R162. -/
def FatalCause.code : FatalCause → BitVec 4
  | .pcOutOfBounds => 1
  | .undefinedOpcode => 2
  | .inactiveSegment => 3
  | .offsetOutOfBounds => 4
  | .freeZero => 5
  | .freeInactive => 6
  | .hostAllocFail => 7
  | .divideByZero => 8
  | .outputRange => 9
  | .outputWriteFail => 10

/-- The output `STATUS` (10_state.md R26). -/
def State.statusOut (s : State) : BitVec 2 :=
  match s.status with
  | .running => 0
  | .halted => 1
  | .failed _ _ => 2

/-- The output `CAUSE` (R26, R162). -/
def State.causeOut (s : State) : BitVec 4 :=
  match s.status with
  | .failed cause _ => cause.code
  | _ => 0

/-- The output `INFO` (R26, R162). -/
def State.infoOut (s : State) : FatalInfo :=
  match s.status with
  | .failed _ info => info
  | _ => ⟨0, 0, 0, 0⟩

/-- The process result of an ended run: 0 on Halt, `EXIT_FAIL` on failure, none while running
(60_exceptions.md R172). -/
def State.processResult (s : State) : Option Nat :=
  match s.status with
  | .running => none
  | .halted => some 0
  | .failed _ _ => some (Config.exitFailLessOne + 1)

/-! ## Transactions with the pool -/

/-- The pool's answer to the next `Alloc`: the one a run names, or a free value (R45, R46; log 5). -/
def State.allocAnswer (s : State) : Option Word :=
  match s.allocAnswers with
  | answer :: _ => answer
  | [] => Config.allocAnswer s.draws

/-- The id the next `Alloc` grants, `none` for `AllocFail`. An id is granted only where R45 allows it:
nonzero and not active (log 5). -/
def State.allocGranted (s : State) : Option Word :=
  match s.allocAnswer with
  | some id => if id ≠ 0 ∧ Memory.active s.mem id = false then some id else none
  | none => none

/-- `Alloc(n)` answering `Ok(id)`: the segment exists, the id leaves the recycling set (R45). -/
def State.allocate (s : State) (id n : Word) : State :=
  { s with
    mem := Memory.alloc s.mem id n
    recycling := s.recycling.filter (· ≠ id)
    allocAnswers := s.allocAnswers.tail
    draws := s.draws + 1 }

/-- `Free(id)`: the id is no longer active and joins the recycling set (R47). -/
def State.release (s : State) (id : Word) : State :=
  { s with mem := Memory.free s.mem id, recycling := id :: s.recycling }

/-- `MemWrite(id, off, v)` on the pool of the state (R44). -/
def State.store (s : State) (id off v : Word) : State := { s with mem := Memory.write s.mem id off v }

/-- Whether the next `ReplaceZero` answers `AllocFail` (R46; log 6). -/
def State.copyFailsNow (s : State) : Bool :=
  match s.copyFails with
  | answer :: _ => answer
  | [] => Config.copyFails s.draws

/-- `ReplaceZero(src)` answering `Ok` (R48). -/
def State.replaceProgram (s : State) (src : Word) : State :=
  { s with
    mem := Memory.replaceZero s.mem src
    copyFails := s.copyFails.tail
    draws := s.draws + 1 }

/-! ## The byte streams -/

/-- Whether the next `OutByte` answers `WriteFail` (R59; log 7). -/
def State.writeFailsNow (s : State) : Bool :=
  match s.writeFails with
  | answer :: _ => answer
  | [] => Config.writeFails s.draws

/-- `OutByte(b)` answering `Ok`: `out_log <- out_log ++ [b]` (R58). -/
def State.emit (s : State) (b : Byte) : State :=
  { s with
    outLog := s.outLog ++ [b]
    writeFails := s.writeFails.tail
    draws := s.draws + 1 }

/-- The host's answer to `InByte()`, or that it has given none yet (R60, R61). -/
inductive InAnswer where
  | byte (b : Byte)
  | eof
  | pending
deriving DecidableEq, Repr

/-- What `InByte()` answers: the next byte, `Eof` at the end of the stream and ever after, or nothing
yet (R60, R61). -/
def State.inAnswer (s : State) : InAnswer :=
  if s.inEof then .eof
  else
    match s.input with
    | b :: _ => .byte b
    | [] => if s.inputEnded then .eof else .pending

/-- The byte is consumed (R60). -/
def State.takeByte (s : State) : State := { s with input := s.input.tail }

/-- `in_eof <- true` (R29, R143). -/
def State.meetEof (s : State) : State := { s with inEof := true }

/-- The value IN gives at the end of the stream (R143). -/
def eofWord : Word := 0xFFFFFFFF

/-! ## Fetch -/

/-- `MemRead(0, pc)`: the word at pc of segment 0 as the last instruction left it, `none` where
`pc >= length(0)` (40_fetch_execute.md R91, R92; 20_memory.md R56). -/
def State.fetch (s : State) : Option Word := Memory.read? s.mem 0 s.pc

end Sys2Proof.Machine
end

