-- ==== Sys2Proof/Machine/Boot.lean ====
section
/-! DEFINITION. What stands outside `step`: launching a run with `PROG` and `INPUT`
(spec/70_reset_and_hazards.md R190, R193, R194), placing one word where the next fetch reads it, the
host's answers to a waiting IN (spec/20_memory.md R61), and the reference allocator of R65, which is
for simulators and test vectors only. -/

namespace Sys2Proof.Machine

/-! ## Launch -/

/-- The nonzero words of a list, by offset from `k` on: the cells of a segment that holds the list. -/
def cellsOf (k : Nat) : List Word → List (Nat × Word)
  | [] => []
  | w :: rest => if w = 0 then cellsOf (k + 1) rest else (k, w) :: cellsOf (k + 1) rest

/-- A segment whose content is the list, in order. -/
def segmentOf (words : List Word) : Segment := ⟨BitVec.ofNat 32 words.length, cellsOf 0 words⟩

/-- The reset state of a run with program `prog` and input `input` (R33); `ended` says whether the
stream ends after those bytes or the host has more to answer (R61). `none` where `prog` is empty or
longer than 2^32 - 1 words: no such run exists (R193; log 19). -/
def State.launch (prog : List Word) (input : List Byte) (ended : Bool) : Option State :=
  if launchLengthOk prog.length then
    some { State.reset with mem := [(0, segmentOf prog)], input := input, inputEnded := ended }
  else none

/-- The pc a fetch can be made at: a pc of 2^32 - 1 is below no length (R43), so there it becomes 0
(log 25). -/
def placePc (pc : Word) : Word := if pc = 0xFFFFFFFF then 0 else pc

/-- Segment 0 with `w` at the offset, made long enough to have a word there. -/
def Memory.place (m : Memory) (off w : Word) : Memory :=
  let g := (Memory.segment? m 0).getD ⟨0, []⟩
  sparseInsert 0 (Segment.write ⟨if off < g.len then g.len else off + 1, g.cells⟩ off w) m

/-- The state whose next step fetches `w`: the run is `Running` and segment 0 has `w` at pc (log 25). -/
def State.placeWord (s : State) (w : Word) : State :=
  { s with status := .running, pc := placePc s.pc, mem := Memory.place s.mem (placePc s.pc) w }

/-! ## The host's answers to IN -/

/-- The host gives one more byte. After it has said that the stream ended it gives none (R60). -/
def State.offerByte (s : State) (b : Byte) : State :=
  if s.inputEnded then s else { s with input := s.input ++ [b] }

/-- The host says that no further byte follows, because the stream ended or because reading it failed
(R60, D11; log 21). -/
def State.endInput (s : State) : State := { s with inputEnded := true }

/-! ## The reference environment (R65) -/

/-- The id the reference allocator gives: the most recently freed id, else the next id never given.
Under this allocator the ids ever given are 1, 2, 3, ... without a gap, so where none is free the next
one is the number of active ids, id 0 among them. -/
def State.referenceId (s : State) : Option Word :=
  match s.recycling with
  | id :: _ => some id
  | [] => if s.mem.length < 2 ^ 32 then some (BitVec.ofNat 32 s.mem.length) else none

/-- The state with the next answers of the host named as a simulator gives them: the reference
allocator's id, no failing copy, no failing write. No claim may rely on it (R65, D8; log 17). -/
def State.withReferenceAnswers (s : State) : State :=
  { s with allocAnswers := [s.referenceId], copyFails := [false], writeFails := [false] }

end Sys2Proof.Machine
end

