-- ==== Sys2Proof/Machine/Flags.lean ====
section
/-! DEFINITION. The machine has no flags, condition codes or predicate registers, and no arithmetic
leaves a carry, overflow, zero or sign anywhere (spec/10_state.md R27). What this file holds is every
condition an instruction computes from a register value and uses at once. -/

namespace Sys2Proof.Machine

/-- The condition of CMOV: the full word is not 0; there is no notion of sign (41_register_ops.md
R100). -/
def conditionHolds (c : Word) : Bool := decide (c ≠ 0)

/-- The failure condition of DIV (R103). -/
def divisorIsZero (c : Word) : Bool := decide (c = 0)

/-- The range check of OUT, on the full word: at most 255 (43_control_io.md R141). -/
def byteInRange (v : Word) : Bool := decide (v ≤ 255)

end Sys2Proof.Machine
end

