-- ==== Sys2Proof/Machine/Operands.lean ====
section
/-! DEFINITION. The operand forms (spec/30_encoding.md R75, spec/42_segment_ops.md R124): a register
(`State.reg` of Ops), the 25-bit immediate of LDI, and the pair (segment id, offset) of two registers
with the checks the core makes before it reaches the pool (spec/20_memory.md R51). -/

namespace Sys2Proof.Machine

/-- The immediate of LDI as a word: zero-extended, not sign-extended, not scaled (R75). -/
def immediate (value : BitVec 25) : Word := value.setWidth 32

/-- The result of the checks before a data access. -/
inductive AccessCheck where
  | inactive
  | outOfBounds
  | pass
deriving DecidableEq, Repr

/-- First `active(id)`, then `off < length(id)` (R51, R124). -/
def checkAccess (m : Memory) (id off : Word) : AccessCheck :=
  match Memory.length? m id with
  | none => .inactive
  | some n => if off < n then .pass else .outOfBounds

/-- The word a load moves once its checks have passed (R120). -/
def loadWord (m : Memory) (id off : Word) : Word := (Memory.read? m id off).getD 0

/-- The byte a word in range is, `x[C] & 0xFF` (43_control_io.md R141). -/
def byteOfWord (v : Word) : Byte := v.setWidth 8

/-- An input byte as a word: zero-extended (R143). -/
def wordOfByte (b : Byte) : Word := b.setWidth 32

end Sys2Proof.Machine
end

