-- ==== Sys2Proof/Machine/ControlIo.lean ====
section
/-! DEFINITION. The control and I/O instructions HALT, OUT, IN, LOADP and the undefined opcodes 14
and 15 (spec/43_control_io.md). -/

namespace Sys2Proof.Machine

/-- HALT (R140): pc is held (D6, log 11). -/
def execHalt (s : State) : Host.Outcome State Fault Refusal := .next s.halt

/-- OUT (R141): range first, on the full word; then the write. -/
def execOut (c : Reg) (s : State) : Host.Outcome State Fault Refusal :=
  .next
    (if byteInRange (s.reg c) then
       if s.writeFailsNow then s.raiseFatal .outputWriteFail 10 0 (s.reg c)
       else (s.emit (byteOfWord (s.reg c))).advance
     else s.raiseFatal .outputRange 10 0 (s.reg c))

/-- IN (R143): a byte, or `0xFFFFFFFF` at the end of the stream; not enabled while the host has
answered neither (R61, R95 (d); log 4). -/
def execInp (c : Reg) (s : State) : Host.Outcome State Fault Refusal :=
  match s.inAnswer with
  | .byte b => .next (s.takeByte.setReg c (wordOfByte b)).advance
  | .eof => .next (s.meetEof.setReg c eofWord).advance
  | .pending => .fault .awaitingInput

/-- LOADP (R144): segment 0 becomes a copy of segment `x[B]` unless that is 0; `pc <- x[C]`, with no
increment and no check of the target. -/
def execLoadp (b c : Reg) (s : State) : Host.Outcome State Fault Refusal :=
  .next
    (if s.reg b = 0 then s.setPc (s.reg c)
     else if Memory.active s.mem (s.reg b) then
       if s.copyFailsNow then s.raiseFatal .hostAllocFail 12 (s.reg b) 0
       else (s.replaceProgram (s.reg b)).setPc (s.reg c)
     else s.raiseFatal .inactiveSegment 12 (s.reg b) 0)

/-- Opcode 14 (R145): `UndefinedOpcode`; bits 27..0 are not examined. -/
def execUndef14 (s : State) : Host.Outcome State Fault Refusal :=
  .next (s.raiseFatal .undefinedOpcode 14 0 0)

/-- Opcode 15 (R145). -/
def execUndef15 (s : State) : Host.Outcome State Fault Refusal :=
  .next (s.raiseFatal .undefinedOpcode 15 0 0)

end Sys2Proof.Machine
end

