-- ==== Sys2Proof/Machine/RegisterOps.lean ====
section
/-! DEFINITION. The register-to-register instructions CMOV, ADD, MUL, DIV, NAND, LDI
(spec/41_register_ops.md). Sources are read in the state before the instruction (R97, R107). -/

namespace Sys2Proof.Machine

/-- What ADD, MUL and NAND share: write the result, then advance pc (R94, R98). -/
def State.finishWith (s : State) (a : Reg) (v : Word) : State := (s.setReg a v).advance

/-- CMOV (R100). -/
def execCmov (a b c : Reg) (s : State) : Host.Outcome State Fault Refusal :=
  .next (if conditionHolds (s.reg c) then s.finishWith a (s.reg b) else s.advance)

/-- ADD (R101): modulo 2^32. -/
def execAdd (a b c : Reg) (s : State) : Host.Outcome State Fault Refusal :=
  .next (s.finishWith a (s.reg b + s.reg c))

/-- MUL (R102): the low 32 bits of the product. -/
def execMul (a b c : Reg) (s : State) : Host.Outcome State Fault Refusal :=
  .next (s.finishWith a (s.reg b * s.reg c))

/-- DIV (R103): unsigned, truncating; divisor 0 is the failure `DivideByZero`. -/
def execDiv (a b c : Reg) (s : State) : Host.Outcome State Fault Refusal :=
  .next
    (if divisorIsZero (s.reg c) then s.raiseFatal .divideByZero 5 0 0
     else s.finishWith a (s.reg b / s.reg c))

/-- NAND (R104): the complement of all 32 bits of the AND. -/
def execNand (a b c : Reg) (s : State) : Host.Outcome State Fault Refusal :=
  .next (s.finishWith a (~~~(s.reg b &&& s.reg c)))

/-- LDI (R105). -/
def execLdi (a : Reg) (value : BitVec 25) (s : State) : Host.Outcome State Fault Refusal :=
  .next (s.finishWith a (immediate value))

end Sys2Proof.Machine
end

