-- ==== Sys2Proof/Machine/SegmentOps.lean ====
section
/-! DEFINITION. The segment instructions AIDX, AMEND, ALLOC, FREE (spec/42_segment_ops.md). The core
makes the checks and raises the failure itself before it reaches the pool (R124). -/

namespace Sys2Proof.Machine

/-- AIDX (R120): `x[A] <- MemRead(x[B], x[C])`. -/
def execAidx (a b c : Reg) (s : State) : Host.Outcome State Fault Refusal :=
  .next
    (match checkAccess s.mem (s.reg b) (s.reg c) with
     | .inactive => s.raiseFatal .inactiveSegment 1 (s.reg b) (s.reg c)
     | .outOfBounds => s.raiseFatal .offsetOutOfBounds 1 (s.reg b) (s.reg c)
     | .pass => (s.setReg a (loadWord s.mem (s.reg b) (s.reg c))).advance)

/-- AMEND (R121): `MemWrite(x[A], x[B], x[C])`; here `A` is the id. -/
def execAmend (a b c : Reg) (s : State) : Host.Outcome State Fault Refusal :=
  .next
    (match checkAccess s.mem (s.reg a) (s.reg b) with
     | .inactive => s.raiseFatal .inactiveSegment 2 (s.reg a) (s.reg b)
     | .outOfBounds => s.raiseFatal .offsetOutOfBounds 2 (s.reg a) (s.reg b)
     | .pass => (s.store (s.reg a) (s.reg b) (s.reg c)).advance)

/-- ALLOC (R122): `x[B] <- Alloc(x[C])`; the id is the pool's answer (R45, log 5). -/
def execAlloc (b c : Reg) (s : State) : Host.Outcome State Fault Refusal :=
  .next
    (match s.allocGranted with
     | none => s.raiseFatal .hostAllocFail 8 0 (s.reg c)
     | some id => ((s.allocate id (s.reg c)).setReg b id).advance)

/-- FREE (R123): `Free(x[C])`; the register keeps the stale id. -/
def execFree (c : Reg) (s : State) : Host.Outcome State Fault Refusal :=
  .next
    (if s.reg c = 0 then s.raiseFatal .freeZero 9 0 0
     else if Memory.active s.mem (s.reg c) then (s.release (s.reg c)).advance
     else s.raiseFatal .freeInactive 9 (s.reg c) 0)

end Sys2Proof.Machine
end

