-- ==== Sys2Proof/Machine/Step.lean ====
section
/-! DEFINITION. One cycle of the machine (spec/40_fetch_execute.md R90, R95). -/

namespace Sys2Proof.Machine

/-- One pass of fetch, decode, execute (R90). Enabled only while the status is `Running` (R25, R164). The
pc is checked before the fetch (R91); the instruction advances pc itself (R94). -/
def step (s : State) : Host.Outcome State Fault Refusal :=
  match s.status with
  | .halted => .fault .halted
  | .failed _ _ => .fault .failed
  | .running =>
    match s.fetch with
    | none => .next (s.raiseFatal .pcOutOfBounds 0 0 s.pc)
    | some w => exec (decode w) s

/-- The state whose next step fetches and runs the instruction whose table bits are `w`: it stands for
the loading of a program from outside the machine (log 25). -/
def State.withFetchWord (s : State) (nbits w : Nat) : State :=
  s.placeWord (BitVec.ofNat 32 (w % 2 ^ nbits))

end Sys2Proof.Machine
end

