-- ==== Sys2Proof/Safety.lean ====
section
/-! DEFINITION. The words claims are stated in: the invariant of the state (spec/10_state.md R34), when
a step is free of failure (spec/60_exceptions.md R179), and what an instruction leaves unchanged. -/

namespace Sys2Proof.Machine

/-! ## The invariant -/

/-- What holds between instructions (R34): the pool is in its canonical form and id 0 is active, the
recycling set holds each of its ids once, all nonzero and not active (R28, R47), and a stream whose end
an IN has met has no byte left (R60). -/
abbrev State.Inv (s : State) : Prop :=
  Memory.wf s.mem = true ∧ Memory.active s.mem 0 = true ∧ s.recycling.Nodup ∧
  (s.recycling.all fun id => decide (id ≠ 0) && !Memory.active s.mem id) = true ∧
  (s.inEof = true → s.input = [] ∧ s.inputEnded = true)

/-- The tables of 60_exceptions.md R161 and R162 for a failure of the instruction `i` in the state `s`: which
instruction raises the cause, under which condition, and what `INFO.id` and `INFO.off` then record.
`PcOutOfBounds` is raised by none. -/
def FatalCause.raisedBy (cause : FatalCause) (i : Instr) (s : State) (id off : Word) : Prop :=
  match cause with
  | .pcOutOfBounds => False
  | .undefinedOpcode => (i = .undef14 ∨ i = .undef15) ∧ id = 0 ∧ off = 0
  | .inactiveSegment =>
    Memory.active s.mem id = false ∧
    ((∃ a b c, i = .aidx a b c ∧ id = s.reg b ∧ off = s.reg c) ∨
     (∃ a b c, i = .amend a b c ∧ id = s.reg a ∧ off = s.reg b) ∨
     ∃ b c, i = .loadp b c ∧ id = s.reg b ∧ id ≠ 0 ∧ off = 0)
  | .offsetOutOfBounds =>
    (∃ n, Memory.length? s.mem id = some n ∧ n.toNat ≤ off.toNat) ∧
    ((∃ a b c, i = .aidx a b c ∧ id = s.reg b ∧ off = s.reg c) ∨
     ∃ a b c, i = .amend a b c ∧ id = s.reg a ∧ off = s.reg b)
  | .freeZero => (∃ c, i = .free c ∧ s.reg c = 0) ∧ id = 0 ∧ off = 0
  | .freeInactive => (∃ c, i = .free c ∧ id = s.reg c) ∧ id ≠ 0 ∧ Memory.active s.mem id = false ∧ off = 0
  | .hostAllocFail =>
    (∃ b c, i = .alloc b c ∧ s.allocGranted = none ∧ id = 0 ∧ off = s.reg c) ∨
    ∃ b c, i = .loadp b c ∧ id = s.reg b ∧ id ≠ 0 ∧ Memory.active s.mem id = true ∧
      s.copyFailsNow = true ∧ off = 0
  | .divideByZero => (∃ a b c, i = .div a b c ∧ s.reg c = 0) ∧ id = 0 ∧ off = 0
  | .outputRange => (∃ c, i = .out c ∧ off = s.reg c) ∧ id = 0 ∧ 255 < off.toNat
  | .outputWriteFail =>
    (∃ c, i = .out c ∧ off = s.reg c) ∧ id = 0 ∧ off.toNat ≤ 255 ∧ s.writeFailsNow = true

/-- What a failure of the step from `s` may be and record (R161, R162): `PcOutOfBounds` where nothing can be
fetched, else a cause of the instruction fetched, with the opcode of the word fetched. -/
def FatalCause.recordOk (cause : FatalCause) (info : FatalInfo) (s : State) : Prop :=
  info.pc = s.pc ∧
  match s.fetch with
  | none => cause = .pcOutOfBounds ∧ info.opcode = 0 ∧ info.id = 0 ∧ info.off = s.pc
  | some w => info.opcode.toNat = w.toNat / 2 ^ 28 ∧ cause.raisedBy (decode w) s info.id info.off

/-! ## Freedom from failure -/

/-- The status is a failure. -/
def Status.isFailed : Status → Bool
  | .failed _ _ => true
  | _ => false

/-- `off` is an offset of the live segment `id`: what a load, a store and a fetch need (R44, R51). -/
def InBounds (s : State) (id off : Word) : Prop :=
  ∃ n, Memory.length? s.mem id = some n ∧ off.toNat < n.toNat

/-- What the program owes before an instruction, for the instruction not to fail (R179). -/
def programPart (i : Instr) (s : State) : Prop :=
  match i with
  | .aidx _ b c => InBounds s (s.reg b) (s.reg c)
  | .amend a b _ => InBounds s (s.reg a) (s.reg b)
  | .div _ _ c => s.reg c ≠ 0
  | .free c => s.reg c ≠ 0 ∧ Memory.active s.mem (s.reg c) = true
  | .out c => (s.reg c).toNat ≤ 255
  | .loadp b _ => s.reg b = 0 ∨ Memory.active s.mem (s.reg b) = true
  | .undef14 | .undef15 => False
  | .cmov _ _ _ | .add _ _ _ | .mul _ _ _ | .nand _ _ _ | .halt | .alloc _ _ | .inp _ | .ldi _ _ => True

/-- What the host owes: it answers neither `AllocFail` nor `WriteFail` to the instruction's transaction
(R179: `NoHostAllocFailure` and `NoOutputWriteFailure`, for one step). -/
def hostPart (i : Instr) (s : State) : Prop :=
  match i with
  | .alloc _ _ => s.allocGranted ≠ none
  | .loadp b _ => s.reg b = 0 ∨ s.copyFailsNow = false
  | .out _ => s.writeFailsNow = false
  | .cmov _ _ _ | .aidx _ _ _ | .amend _ _ _ | .add _ _ _ | .mul _ _ _ | .div _ _ _ | .nand _ _ _
  | .halt | .free _ | .inp _ | .ldi _ _ | .undef14 | .undef15 => True

/-- The step from `s` is free of failure: `pc < length(0)`, and program and host do their part for the
instruction fetched (R179). -/
def State.stepFailureFree (s : State) : Prop :=
  ∃ w, s.fetch = some w ∧ programPart (decode w) s ∧ hostPart (decode w) s

/-! ## Frames -/

/-- Every register but `a` keeps its value. -/
def SameRegsBut (a : Reg) (s t : State) : Prop := ∀ r, r ≠ a → t.reg r = s.reg r

/-- Every register keeps its value. -/
def SameRegs (s t : State) : Prop := ∀ r, t.reg r = s.reg r

/-- Every word of every segment, every length, the set of active ids and the recycling set are as they
were. -/
def SamePool (s t : State) : Prop := t.mem = s.mem ∧ t.recycling = s.recycling

/-- The input stream is as it was. -/
def SameInput (s t : State) : Prop :=
  t.input = s.input ∧ t.inputEnded = s.inputEnded ∧ t.inEof = s.inEof

/-- The host's answers known in advance, and the number of draws, are as they were. -/
def SameHost (s t : State) : Prop :=
  t.allocAnswers = s.allocAnswers ∧ t.copyFails = s.copyFails ∧ t.writeFails = s.writeFails ∧
  t.draws = s.draws

/-- Nothing but registers and pc may differ. -/
def SameOutsideRegs (s t : State) : Prop :=
  t.status = s.status ∧ SamePool s t ∧ SameInput s t ∧ t.outLog = s.outLog ∧ SameHost s t

/-- The segment of every id but `id` is as it was: active or not, its length and all its words. -/
def SameSegmentsBut (id : Word) (s t : State) : Prop :=
  ∀ j, j ≠ id → Memory.segment? t.mem j = Memory.segment? s.mem j

/-! ## Several instructions -/

/-- The state after the instructions of a list, one after the other; `none` where one of them has no next
state. -/
def execAll : List Instr → State → Option State
  | [], s => some s
  | i :: rest, s =>
    match exec i s with
    | .next t => execAll rest t
    | .fault _ => none
    | .refused _ => none

/-! ## Which registers an instruction may read and write -/

/-- The one register an instruction may write (10_state.md R21). -/
def writtenReg : Instr → Option Reg
  | .cmov a _ _ | .aidx a _ _ | .add a _ _ | .mul a _ _ | .div a _ _ | .nand a _ _ | .ldi a _ => some a
  | .alloc b _ => some b
  | .inp c => some c
  | .amend _ _ _ | .halt | .free _ | .out _ | .loadp _ _ | .undef14 | .undef15 => none

/-- The registers an instruction reads (R21). -/
def readRegs : Instr → List Reg
  | .cmov _ b c | .aidx _ b c | .add _ b c | .mul _ b c | .div _ b c | .nand _ b c => [b, c]
  | .amend a b c => [a, b, c]
  | .loadp b c => [b, c]
  | .alloc _ c | .free c | .out c => [c]
  | .halt | .inp _ | .ldi _ _ | .undef14 | .undef15 => []

/-! ## Encodings, said in numbers -/

/-- The index of a register (10_state.md R20). -/
def regNumber : Reg → Nat
  | .x0 => 0 | .x1 => 1 | .x2 => 2 | .x3 => 3 | .x4 => 4 | .x5 => 5 | .x6 => 6 | .x7 => 7

/-- Field `A`, `B` or `C` of the standard format, at bit `lo` (30_encoding.md R72), names the register. -/
def FieldNames (w : Word) (lo : Nat) (r : Reg) : Prop := w.toNat / 2 ^ lo % 8 = regNumber r

/-- Opcode `op` with the fields `A`, `B`, `C`: every word with that opcode is the instruction, whatever
bits 27..9 hold, and the canonical word has 0 there (R72, R77, R84). -/
def EncodesABC (op : Nat) (mk : Reg → Reg → Reg → Instr) : Prop :=
  (∀ (w : Word) (a b c : Reg), w.toNat / 2 ^ 28 = op → FieldNames w 6 a → FieldNames w 3 b →
    FieldNames w 0 c → decode w = mk a b c) ∧
  ∀ a b c : Reg, (encode (mk a b c)).toNat =
    op * 2 ^ 28 + regNumber a * 2 ^ 6 + regNumber b * 2 ^ 3 + regNumber c

/-- Opcode `op` with the fields `B` and `C`, field `A` ignored (R78). -/
def EncodesBC (op : Nat) (mk : Reg → Reg → Instr) : Prop :=
  (∀ (w : Word) (b c : Reg), w.toNat / 2 ^ 28 = op → FieldNames w 3 b → FieldNames w 0 c →
    decode w = mk b c) ∧
  ∀ b c : Reg, (encode (mk b c)).toNat = op * 2 ^ 28 + regNumber b * 2 ^ 3 + regNumber c

/-- Opcode `op` with the field `C` alone (R78). -/
def EncodesC (op : Nat) (mk : Reg → Instr) : Prop :=
  (∀ (w : Word) (c : Reg), w.toNat / 2 ^ 28 = op → FieldNames w 0 c → decode w = mk c) ∧
  ∀ c : Reg, (encode (mk c)).toNat = op * 2 ^ 28 + regNumber c

/-- Opcode `op` with no field (R78). -/
def EncodesNone (op : Nat) (i : Instr) : Prop :=
  (∀ w : Word, w.toNat / 2 ^ 28 = op → decode w = i) ∧ (encode i).toNat = op * 2 ^ 28

end Sys2Proof.Machine
end

