-- ==== Sys2Proof/Certificates/Slice0/Obligations.lean ====
section
/-! DEFINITION. The statements for the provers. Rules R<n> are those of spec/, decisions D<n> those of
spec/92_eei_decisions.md; "log n" is notes/assumptions/n.md. -/

open Sys2Proof Sys2Proof.Machine

/-! ## Encoding -/

/-- Decoding a canonical word gives back the same instruction, for every instruction and every operand
(R84, which the spec marks as derived from R72 and R73). -/
def Obligations.DecodeEncodeRoundTrip : Prop := ∀ i : Instr, decode (encode i) = i

/-- Encoding the decoded instruction gives the word with its ignored bits cleared, for every word: the
decoder reads every used bit and no other (R72, R73, R77, R84; R78 is the spec's decision D15, log 12). -/
def Obligations.EncodeDecodeClearsIgnoredBits : Prop :=
  ∀ w : Word, encode (decode w) = w &&& usedBits (opcodeField w)

/-- R71: bits 31..28, and no other, select the instruction. -/
def Obligations.OpcodeFieldAloneSelectsInstruction : Prop :=
  ∀ w : Word, (decode w).opcode.toNat = w.toNat / 2 ^ 28

/-- Words of spec/95_test_vectors.md section 2.1 decode to the instructions listed there. -/
def Obligations.TestVectorWordsDecode : Prop :=
  decode 0x00000053 = .cmov .x1 .x2 .x3 ∧ decode 0x10000154 = .aidx .x5 .x2 .x4 ∧
  decode 0x200000A3 = .amend .x2 .x4 .x3 ∧ decode 0x3FFFFEC9 = .add .x3 .x1 .x1 ∧
  decode 0x7ABCDEF5 = .halt ∧ decode 0x800001D1 = .alloc .x2 .x1 ∧ decode 0xA00001FA = .out .x2 ∧
  decode 0xC0000008 = .loadp .x1 .x0 ∧ decode 0xDF000000 = .ldi .x7 0x1000000 ∧
  decode 0xEFFFFFFF = .undef14 ∧ decode 0xFFFFFFFF = .undef15

/-! ## Register-to-register instructions -/

/-- R100: CMOV moves exactly where the whole condition word is not 0; it always completes. -/
def Obligations.CmovMovesWhenConditionNonzero : Prop :=
  EncodesABC 0 .cmov ∧
  ∀ (a b c : Reg) (s : State), ∃ t, exec (.cmov a b c) s = .next t ∧
    t.reg a = (if (s.reg c).toNat = 0 then s.reg a else s.reg b) ∧
    SameRegsBut a s t ∧ t.pc = s.pc + 1 ∧ SameOutsideRegs s t

/-- R101: the sum modulo 2^32; ADD always completes. -/
def Obligations.AddIsSumModuloWord : Prop :=
  EncodesABC 3 .add ∧
  ∀ (a b c : Reg) (s : State), ∃ t, exec (.add a b c) s = .next t ∧
    (t.reg a).toNat = ((s.reg b).toNat + (s.reg c).toNat) % 2 ^ 32 ∧
    SameRegsBut a s t ∧ t.pc = s.pc + 1 ∧ SameOutsideRegs s t

/-- R102: the low 32 bits of the product; MUL always completes. -/
def Obligations.MulIsProductModuloWord : Prop :=
  EncodesABC 4 .mul ∧
  ∀ (a b c : Reg) (s : State), ∃ t, exec (.mul a b c) s = .next t ∧
    (t.reg a).toNat = ((s.reg b).toNat * (s.reg c).toNat) % 2 ^ 32 ∧
    SameRegsBut a s t ∧ t.pc = s.pc + 1 ∧ SameOutsideRegs s t

/-- R103: the unsigned floor quotient, and the failure `DivideByZero` exactly for divisor 0. The record and that
nothing else changes are decisions D3 and D4, log 9. -/
def Obligations.DivIsUnsignedFloorOrFails : Prop :=
  EncodesABC 5 .div ∧
  (∀ (a b c : Reg) (s : State), s.reg c ≠ 0 → ∃ t, exec (.div a b c) s = .next t ∧
    (t.reg a).toNat = (s.reg b).toNat / (s.reg c).toNat ∧
    SameRegsBut a s t ∧ t.pc = s.pc + 1 ∧ SameOutsideRegs s t) ∧
  ∀ (a b c : Reg) (s : State), s.reg c = 0 →
    exec (.div a b c) s = .next { s with status := .failed .divideByZero ⟨5, s.pc, 0, 0⟩ }

/-- R104: every one of the 32 bits is 1 unless both operand bits are 1; NAND always completes. -/
def Obligations.NandComplementsEveryBit : Prop :=
  EncodesABC 6 .nand ∧
  ∀ (a b c : Reg) (s : State), ∃ t, exec (.nand a b c) s = .next t ∧
    (∀ k, k < 32 → (t.reg a).getLsbD k = !((s.reg b).getLsbD k && (s.reg c).getLsbD k)) ∧
    SameRegsBut a s t ∧ t.pc = s.pc + 1 ∧ SameOutsideRegs s t

/-- R105: LDI writes the 25-bit value zero-extended to the register in bits 27..25; it always completes. -/
def Obligations.LdiZeroExtendsValue : Prop :=
  (∀ (w : Word) (a : Reg) (value : BitVec 25), w.toNat / 2 ^ 28 = 13 →
    w.toNat / 2 ^ 25 % 8 = regNumber a → w.toNat % 2 ^ 25 = value.toNat → decode w = .ldi a value) ∧
  (∀ (a : Reg) (value : BitVec 25),
    (encode (.ldi a value)).toNat = 13 * 2 ^ 28 + regNumber a * 2 ^ 25 + value.toNat) ∧
  ∀ (a : Reg) (value : BitVec 25) (s : State), ∃ t, exec (.ldi a value) s = .next t ∧
    (t.reg a).toNat = value.toNat ∧
    SameRegsBut a s t ∧ t.pc = s.pc + 1 ∧ SameOutsideRegs s t

/-! ## Segment instructions -/

/-- R120: AIDX loads the word at (x[B], x[C]) where the id is active and the offset below its length; it
fails with `OffsetOutOfBounds` at and past the length, and with `InactiveSegment` on every other id. The records
and that nothing else changes are decisions D3 and D4, log 9; activity before bounds is D13, log 13; that id 0 is
read like any other is D17, log 20. -/
def Obligations.AidxLoadsWordOrFails : Prop :=
  EncodesABC 1 .aidx ∧
  (∀ (a b c : Reg) (s : State) (n : Word), Memory.length? s.mem (s.reg b) = some n →
    (s.reg c).toNat < n.toNat → ∃ t w, exec (.aidx a b c) s = .next t ∧
      Memory.read? s.mem (s.reg b) (s.reg c) = some w ∧ t.reg a = w ∧
      SameRegsBut a s t ∧ t.pc = s.pc + 1 ∧ SameOutsideRegs s t) ∧
  (∀ (a b c : Reg) (s : State) (n : Word), Memory.length? s.mem (s.reg b) = some n →
    n.toNat ≤ (s.reg c).toNat → exec (.aidx a b c) s =
      .next { s with status := .failed .offsetOutOfBounds ⟨1, s.pc, s.reg b, s.reg c⟩ }) ∧
  ∀ (a b c : Reg) (s : State), Memory.active s.mem (s.reg b) = false → exec (.aidx a b c) s =
    .next { s with status := .failed .inactiveSegment ⟨1, s.pc, s.reg b, s.reg c⟩ }

/-- R121: AMEND stores x[C] at (x[A], x[B]) and changes no other word, no length and no register; the
failures are as for AIDX. The records and that nothing else changes are decisions D3 and D4, log 9; activity
before bounds is D13, log 13; that id 0 is written like any other is D17, log 20. -/
def Obligations.AmendStoresWordOrFails : Prop :=
  EncodesABC 2 .amend ∧
  (∀ (a b c : Reg) (s : State) (n : Word), Memory.length? s.mem (s.reg a) = some n →
    (s.reg b).toNat < n.toNat → ∃ t, exec (.amend a b c) s = .next t ∧
      Memory.read? t.mem (s.reg a) (s.reg b) = some (s.reg c) ∧
      (∀ id off : Word, ¬ (id = s.reg a ∧ off = s.reg b) →
        Memory.read? t.mem id off = Memory.read? s.mem id off) ∧
      (∀ id : Word, Memory.length? t.mem id = Memory.length? s.mem id) ∧
      SameRegs s t ∧ t.pc = s.pc + 1 ∧ t.status = s.status ∧ t.recycling = s.recycling ∧
      SameInput s t ∧ t.outLog = s.outLog ∧ SameHost s t) ∧
  (∀ (a b c : Reg) (s : State) (n : Word), Memory.length? s.mem (s.reg a) = some n →
    n.toNat ≤ (s.reg b).toNat → exec (.amend a b c) s =
      .next { s with status := .failed .offsetOutOfBounds ⟨2, s.pc, s.reg a, s.reg b⟩ }) ∧
  ∀ (a b c : Reg) (s : State), Memory.active s.mem (s.reg a) = false → exec (.amend a b c) s =
    .next { s with status := .failed .inactiveSegment ⟨2, s.pc, s.reg a, s.reg b⟩ }

/-- R122: where the pool grants an id, it is nonzero and was not active, the new segment has x[C] words, all
0, and x[B] receives the id; where it grants none, `HostAllocFail`. The grant is the environment's (R45, R46):
the statement holds for every grant. That an answer R45 forbids counts as `AllocFail` is the model's choice,
log 5, as is the bookkeeping of the answers and draws, log 8; the record and that a failure changes nothing else
are decisions D3 and D4, log 9; that field A is ignored is D15, log 12. -/
def Obligations.AllocGivesFreshZeroSegment : Prop :=
  EncodesBC 8 .alloc ∧
  (∀ (b c : Reg) (s : State) (id : Word), s.allocGranted = some id →
    id ≠ 0 ∧ Memory.active s.mem id = false ∧ ∃ t, exec (.alloc b c) s = .next t ∧
      t.reg b = id ∧ Memory.length? t.mem id = some (s.reg c) ∧
      (∀ off : Word, off.toNat < (s.reg c).toNat → Memory.read? t.mem id off = some 0) ∧
      SameSegmentsBut id s t ∧
      (∀ j : Word, j ∈ t.recycling ↔ j ∈ s.recycling ∧ j ≠ id) ∧
      SameRegsBut b s t ∧ t.pc = s.pc + 1 ∧ t.status = s.status ∧ SameInput s t ∧ t.outLog = s.outLog ∧
      t.allocAnswers = s.allocAnswers.tail ∧ t.copyFails = s.copyFails ∧
      t.writeFails = s.writeFails ∧ t.draws = s.draws + 1) ∧
  ∀ (b c : Reg) (s : State), s.allocGranted = none → exec (.alloc b c) s =
    .next { s with status := .failed .hostAllocFail ⟨8, s.pc, 0, s.reg c⟩ }

/-- R123: FREE of a nonzero active id makes it inactive and puts it in the recycling set, and leaves every
other segment and every register alone; id 0 is `FreeZero`, an inactive id `FreeInactive`. The records and that a
failure changes nothing else are decisions D3 and D4, log 9; that fields A and B are ignored is D15, log 12. -/
def Obligations.FreeDeactivatesOrFails : Prop :=
  EncodesC 9 .free ∧
  (∀ (c : Reg) (s : State), s.reg c ≠ 0 → Memory.active s.mem (s.reg c) = true →
    ∃ t, exec (.free c) s = .next t ∧ Memory.active t.mem (s.reg c) = false ∧
      SameSegmentsBut (s.reg c) s t ∧
      (∀ j : Word, j ∈ t.recycling ↔ j = s.reg c ∨ j ∈ s.recycling) ∧
      SameRegs s t ∧ t.pc = s.pc + 1 ∧ t.status = s.status ∧ SameInput s t ∧ t.outLog = s.outLog ∧
      SameHost s t) ∧
  (∀ (c : Reg) (s : State), s.reg c = 0 → exec (.free c) s =
    .next { s with status := .failed .freeZero ⟨9, s.pc, 0, 0⟩ }) ∧
  ∀ (c : Reg) (s : State), s.reg c ≠ 0 → Memory.active s.mem (s.reg c) = false → exec (.free c) s =
    .next { s with status := .failed .freeInactive ⟨9, s.pc, s.reg c, 0⟩ }

/-- After a FREE that did not fail, a load, a store and a Load Program through the stale id, even from
another register that holds it, fail with `InactiveSegment` (R123, R199 (b)). The records and that nothing else
changes are decisions D3 and D4, log 9. -/
def Obligations.StaleIdFailsAfterFree : Prop :=
  ∀ (c : Reg) (s t : State), exec (.free c) s = .next t → t.status = .running →
    (∀ a b d : Reg, t.reg b = s.reg c → exec (.aidx a b d) t =
      .next { t with status := .failed .inactiveSegment ⟨1, t.pc, s.reg c, t.reg d⟩ }) ∧
    (∀ a b d : Reg, t.reg a = s.reg c → exec (.amend a b d) t =
      .next { t with status := .failed .inactiveSegment ⟨2, t.pc, s.reg c, t.reg b⟩ }) ∧
    ∀ b d : Reg, t.reg b = s.reg c → exec (.loadp b d) t =
      .next { t with status := .failed .inactiveSegment ⟨12, t.pc, s.reg c, 0⟩ }

/-- Two allocations with any instructions but FREE between, other allocations among them, give different nonzero
ids, both active after the second, and neither segment is affected by a store to the other (R45, R66). The grants
are any the environment may give, log 5. -/
def Obligations.TwoAllocationsDoNotAlias : Prop :=
  ∀ (b c b' c' : Reg) (between : List Instr) (s t t' u : State) (i j : Word),
    s.allocGranted = some i → exec (.alloc b c) s = .next t →
    (∀ r : Reg, .free r ∉ between) → execAll between t = some t' →
    t'.allocGranted = some j → exec (.alloc b' c') t' = .next u →
    i ≠ j ∧ i ≠ 0 ∧ j ≠ 0 ∧ Memory.active u.mem i = true ∧ Memory.active u.mem j = true ∧
    ∀ off v o : Word, Memory.read? (u.store i off v).mem j o = Memory.read? u.mem j o ∧
      Memory.read? (u.store j off v).mem i o = Memory.read? u.mem i o

/-! ## Control and I/O -/

/-- HALT ends the run and changes nothing else (R140). That pc is held is the spec's decision D6, log 11. -/
def Obligations.HaltEndsRunAndHoldsState : Prop :=
  EncodesNone 7 .halt ∧ ∀ s : State, exec .halt s = .next { s with status := .halted }

/-- R141: OUT emits the byte of a value up to 255 where the host takes it; a value above 255 is
`OutputRange`, whatever the host would answer, and a byte the host does not take is `OutputWriteFail`. That a
write may fail is decision D10, log 7; the bookkeeping of the answers and draws is the model's, log 8; the records
and that a failure changes nothing else are D3 and D4, log 9; range before write is D13, log 13; that fields A
and B are ignored is D15, log 12. -/
def Obligations.OutEmitsByteOrFails : Prop :=
  EncodesC 10 .out ∧
  (∀ (c : Reg) (s : State), (s.reg c).toNat ≤ 255 → s.writeFailsNow = false →
    ∃ t v, exec (.out c) s = .next t ∧ t.outLog = s.outLog ++ [v] ∧ v.toNat = (s.reg c).toNat ∧
      SameRegs s t ∧ t.pc = s.pc + 1 ∧ t.status = s.status ∧ SamePool s t ∧ SameInput s t ∧
      t.allocAnswers = s.allocAnswers ∧ t.copyFails = s.copyFails ∧
      t.writeFails = s.writeFails.tail ∧ t.draws = s.draws + 1) ∧
  (∀ (c : Reg) (s : State), (s.reg c).toNat ≤ 255 → s.writeFailsNow = true → exec (.out c) s =
    .next { s with status := .failed .outputWriteFail ⟨10, s.pc, 0, s.reg c⟩ }) ∧
  ∀ (c : Reg) (s : State), 255 < (s.reg c).toNat → exec (.out c) s =
    .next { s with status := .failed .outputRange ⟨10, s.pc, 0, s.reg c⟩ }

/-- R143: IN consumes the next byte and zero-extends it; at the end of the stream, and ever after it was
met, it gives 0xFFFFFFFF and marks the end; while the host has answered neither, there is no next state (R61).
That the host's answers are read off `input` and `inputEnded` is the model's choice, log 4; that fields A and B are
ignored is decision D15, log 12. -/
def Obligations.InGivesByteOrEndOfStream : Prop :=
  EncodesC 11 .inp ∧
  (∀ (c : Reg) (s : State) (v : Byte) (rest : List Byte), s.inEof = false → s.input = v :: rest →
    ∃ t, exec (.inp c) s = .next t ∧ (t.reg c).toNat = v.toNat ∧ t.input = rest ∧
      t.inputEnded = s.inputEnded ∧ t.inEof = false ∧
      SameRegsBut c s t ∧ t.pc = s.pc + 1 ∧ t.status = s.status ∧ SamePool s t ∧
      t.outLog = s.outLog ∧ SameHost s t) ∧
  (∀ (c : Reg) (s : State), s.inEof = true ∨ (s.input = [] ∧ s.inputEnded = true) →
    ∃ t, exec (.inp c) s = .next t ∧ (t.reg c).toNat = 0xFFFFFFFF ∧ t.inEof = true ∧
      t.input = s.input ∧ t.inputEnded = s.inputEnded ∧
      SameRegsBut c s t ∧ t.pc = s.pc + 1 ∧ t.status = s.status ∧ SamePool s t ∧
      t.outLog = s.outLog ∧ SameHost s t) ∧
  ∀ (c : Reg) (s t : State), s.inEof = false → s.input = [] → s.inputEnded = false →
    exec (.inp c) s ≠ .next t

/-- IN with no answer of the host is the stop `awaitingInput`, and an answer of the host lifts it: a byte
is then read, or the end of the stream met (R61, decision D12). That the hold is a named stop and not a
state is the model's choice, log 4. -/
def Obligations.InWaitsUntilHostAnswers : Prop :=
  ∀ (c : Reg) (s : State), s.inEof = false → s.input = [] → s.inputEnded = false →
    exec (.inp c) s = .fault .awaitingInput ∧
    (∀ v : Byte, ∃ t, exec (.inp c) (s.offerByte v) = .next t ∧ (t.reg c).toNat = v.toNat ∧
      t.input = [] ∧ t.inEof = false) ∧
    ∃ t, exec (.inp c) s.endInput = .next t ∧ (t.reg c).toNat = 0xFFFFFFFF ∧ t.inEof = true

/-- Once an IN has met the end of the stream, no instruction clears the mark, and every IN gives 0xFFFFFFFF,
whatever the host offers (R29, R60). -/
def Obligations.EndOfStreamIsSticky : Prop :=
  (∀ (i : Instr) (s t : State), s.inEof = true → exec i s = .next t → t.inEof = true) ∧
  ∀ (c : Reg) (s : State) (v : Byte), s.inEof = true →
    ∃ t, exec (.inp c) (s.offerByte v) = .next t ∧ (t.reg c).toNat = 0xFFFFFFFF

/-- LOADP (R144): with x[B] = 0 a plain jump; with an active x[B] and a copy that succeeds, segment 0 becomes
that segment, every other segment is unchanged, and pc is x[C] with no increment; an inactive x[B] is
`InactiveSegment`. That a copy may fail, `HostAllocFail`, is decision D9, log 6; the bookkeeping of the answers and
draws is the model's, log 8; the records and that a failure changes nothing else are D3, D4 and D18, log 9;
activity before copy is D13, log 13; that field A is ignored is D15, log 12. -/
def Obligations.LoadpReplacesProgramAndJumps : Prop :=
  EncodesBC 12 .loadp ∧
  (∀ (b c : Reg) (s : State), s.reg b = 0 →
    exec (.loadp b c) s = .next { s with pc := s.reg c }) ∧
  (∀ (b c : Reg) (s : State), s.reg b ≠ 0 → Memory.active s.mem (s.reg b) = true →
    s.copyFailsNow = false → ∃ t, exec (.loadp b c) s = .next t ∧
      Memory.segment? t.mem 0 = Memory.segment? s.mem (s.reg b) ∧ SameSegmentsBut 0 s t ∧
      t.pc = s.reg c ∧ SameRegs s t ∧ t.status = s.status ∧ t.recycling = s.recycling ∧
      SameInput s t ∧ t.outLog = s.outLog ∧ t.allocAnswers = s.allocAnswers ∧
      t.copyFails = s.copyFails.tail ∧ t.writeFails = s.writeFails ∧ t.draws = s.draws + 1) ∧
  (∀ (b c : Reg) (s : State), s.reg b ≠ 0 → Memory.active s.mem (s.reg b) = true →
    s.copyFailsNow = true → exec (.loadp b c) s =
      .next { s with status := .failed .hostAllocFail ⟨12, s.pc, s.reg b, 0⟩ }) ∧
  ∀ (b c : Reg) (s : State), s.reg b ≠ 0 → Memory.active s.mem (s.reg b) = false →
    exec (.loadp b c) s = .next { s with status := .failed .inactiveSegment ⟨12, s.pc, s.reg b, 0⟩ }

/-- After a Load Program from segment x[B] ≠ 0, the two have the same words, a store to the source segment
changes no word of segment 0, and a store to segment 0 changes no word of the source (R48, R66, R144 (b)). -/
def Obligations.LoadedProgramIsIndependentCopy : Prop :=
  ∀ (b c a d e : Reg) (s t u : State), s.reg b ≠ 0 → exec (.loadp b c) s = .next t →
    t.status = .running → exec (.amend a d e) t = .next u →
    (∀ off : Word, Memory.read? t.mem 0 off = Memory.read? t.mem (s.reg b) off) ∧
    (t.reg a = s.reg b → ∀ off : Word, Memory.read? u.mem 0 off = Memory.read? t.mem 0 off) ∧
    (t.reg a = 0 → ∀ off : Word, Memory.read? u.mem (s.reg b) off = Memory.read? t.mem (s.reg b) off)

/-- R145: a word with opcode 14 or 15 fails with `UndefinedOpcode` and changes nothing else, whatever its
other bits. The record and that nothing else changes are decisions D3 and D4, log 9. -/
def Obligations.UndefinedOpcodesFail : Prop :=
  EncodesNone 14 .undef14 ∧ EncodesNone 15 .undef15 ∧
  (∀ s : State, exec .undef14 s =
    .next { s with status := .failed .undefinedOpcode ⟨14, s.pc, 0, 0⟩ }) ∧
  ∀ s : State, exec .undef15 s =
    .next { s with status := .failed .undefinedOpcode ⟨15, s.pc, 0, 0⟩ }

/-! ## The cycle -/

/-- A running machine whose fetched word decodes to an instruction steps as that instruction; the step adds
nothing around it (R90, R92, R93). -/
def Obligations.StepRunsDecodedInstruction : Prop :=
  ∀ (s : State) (w : Word) (i : Instr), s.status = .running →
    Memory.read? s.mem 0 s.pc = some w → decode w = i → step s = exec i s

/-- R91: pc is compared with the length segment 0 has now; at or past it the cycle fails with `PcOutOfBounds`
and fetches nothing; below it a word is fetched and run (R92, R93). The record `⟨0, pc, 0, pc⟩` is that of R90 and
R162 (decision D3), and that nothing else changes is D4, log 9. -/
def Obligations.PcCheckedBeforeFetch : Prop :=
  (∀ (s : State) (n : Word), s.status = .running → Memory.length? s.mem 0 = some n →
    n.toNat ≤ s.pc.toNat →
    step s = .next { s with status := .failed .pcOutOfBounds ⟨0, s.pc, 0, s.pc⟩ }) ∧
  ∀ (s : State) (n : Word), s.status = .running → Memory.length? s.mem 0 = some n →
    s.pc.toNat < n.toNat →
    ∃ w, Memory.read? s.mem 0 s.pc = some w ∧ step s = exec (decode w) s

/-- No step is enabled once the run has ended (R164, decision D5). That this is a named stop is the model's
choice, log 10. -/
def Obligations.EndedRunTakesNoStep : Prop :=
  (∀ s : State, s.status = .halted → step s = .fault .halted) ∧
  ∀ (s : State) (cause : FatalCause) (info : FatalInfo), s.status = .failed cause info →
    step s = .fault .failed

/-- A running machine always has a next state, but for an IN the host has not answered (R95, which the spec
marks as derived; log 4). -/
def Obligations.RunningStepAnswersUnlessInputAwaited : Prop :=
  ∀ s : State, s.status = .running → (∃ t, step s = .next t) ∨
    (step s = .fault .awaitingInput ∧ s.inEof = false ∧ s.input = [] ∧ s.inputEnded = false ∧
      ∃ w c, s.fetch = some w ∧ decode w = .inp c)

/-- A step leaves the run halted exactly when the word fetched has opcode 7 (R25, R99). -/
def Obligations.HaltedExactlyByOpcodeSeven : Prop :=
  ∀ s t : State, step s = .next t →
    (t.status = .halted ↔ ∃ w, s.fetch = some w ∧ w.toNat / 2 ^ 28 = 7)

/-- A step that ends in a failure changes nothing but the status; the cause is one R161 lists for the instruction
fetched, under the condition listed there, and the record is what the table of R162 says: the opcode of the word
fetched, pc, the id and the offset, length or value (R98, R163; decisions D3, D4, log 9). -/
def Obligations.FailuresArePreciseAndRecorded : Prop :=
  ∀ (s t : State) (cause : FatalCause) (info : FatalInfo), step s = .next t →
    t.status = .failed cause info →
    t = { s with status := .failed cause info } ∧ cause.recordOk info s

/-- A step of a running machine is free of failure exactly under the conditions of R179, which the spec marks
as derived from R161. -/
def Obligations.StepFailsExactlyAsListed : Prop :=
  ∀ s : State, s.status = .running →
    (s.stepFailureFree ↔ ∀ t, step s = .next t → t.status.isFailed = false)

/-- pc after an instruction: x[C] for LOADP, pc + 1 for every other that completes (R23, R94); unchanged by
HALT and by a failure (decisions D6, D4). -/
def Obligations.PcAdvancesAsListed : Prop :=
  ∀ (i : Instr) (s t : State), s.status = .running → exec i s = .next t →
    t.pc = if t.status = .running then
        (match i with
         | .loadp _ c => s.reg c
         | _ => s.pc + 1)
      else s.pc

/-- The increment after a successful fetch never wraps (R24, which the spec marks as derived). -/
def Obligations.PcIncrementNeverWraps : Prop :=
  ∀ (s : State) (w : Word), s.fetch = some w → ∃ n, Memory.length? s.mem 0 = some n ∧
    (s.pc + 1).toNat = s.pc.toNat + 1 ∧ (s.pc + 1).toNat ≤ n.toNat

/-- A store to the word right after the running instruction is what the very next step fetches and runs
(R56, which the spec marks as derived from R90 and R55). -/
def Obligations.StoreToNextWordIsFetchedNext : Prop :=
  ∀ (s : State) (w : Word) (a b c : Reg), s.status = .running → s.fetch = some w →
    decode w = .amend a b c → s.reg a = 0 → s.reg b = s.pc + 1 → InBounds s 0 (s.pc + 1) →
    ∃ t, step s = .next t ∧ t.fetch = some (s.reg c) ∧ step t = exec (decode (s.reg c)) t

/-! ## Rules over all instructions -/

/-- No instruction writes a register but the one the table of R21 lists for it. -/
def Obligations.OnlyListedRegisterWritten : Prop :=
  ∀ (i : Instr) (s t : State) (r : Reg), exec i s = .next t → writtenReg i ≠ some r →
    t.reg r = s.reg r

/-- No instruction reads a register that the table of R21 does not list for it: with another value there the
instruction does the same, and the register itself gets the same new value, or keeps the value it had in both.
The two runs get the same answers of the host, logs 4 to 7. -/
def Obligations.OnlyListedRegistersRead : Prop :=
  ∀ (i : Instr) (s t : State) (r : Reg) (v : Word), r ∉ readRegs i → exec i s = .next t →
    ∃ u, exec i (s.setReg r v) = .next u ∧ (∀ q, q ≠ r → u.reg q = t.reg q) ∧
      (u.reg r = t.reg r ∨ (u.reg r = v ∧ t.reg r = s.reg r)) ∧
      u.pc = t.pc ∧ SameOutsideRegs t u

/-- While id 0 is active, an id becomes active only by the ALLOC that returns it, and ceases to be only by a
FREE of it, which id 0 never suffers (R34 (a) to (c), R41, R47, R49). -/
def Obligations.ActiveIdsChangeOnlyByAllocAndFree : Prop :=
  ∀ (i : Instr) (s t : State) (id : Word), Memory.active s.mem 0 = true → exec i s = .next t →
    (Memory.active s.mem id = false → Memory.active t.mem id = true →
      id ≠ 0 ∧ s.allocGranted = some id ∧ ∃ b c, i = .alloc b c) ∧
    (Memory.active s.mem id = true → Memory.active t.mem id = false →
      id ≠ 0 ∧ ∃ c, i = .free c ∧ s.reg c = id)

/-- The length of a segment that stays active never changes, but that of segment 0 by a LOADP with
x[B] ≠ 0 (R34 (d), R42). -/
def Obligations.SegmentLengthsChangeOnlyByLoadp : Prop :=
  ∀ (i : Instr) (s t : State) (id m n : Word), exec i s = .next t →
    Memory.length? s.mem id = some m → Memory.length? t.mem id = some n → m ≠ n →
    id = 0 ∧ ∃ b c, i = .loadp b c ∧ s.reg b ≠ 0

/-- The words of a segment change only by an AMEND of that word, or, for segment 0, by a LOADP with
x[B] ≠ 0, as long as the segment stays active (R44, R48, R66). -/
def Obligations.WordsChangeOnlyByAmendAndLoadp : Prop :=
  ∀ (i : Instr) (s t : State) (id off v w : Word), exec i s = .next t →
    Memory.read? s.mem id off = some v → Memory.read? t.mem id off = some w → v ≠ w →
    (∃ a b c, i = .amend a b c ∧ s.reg a = id ∧ s.reg b = off ∧ s.reg c = w) ∨
    (id = 0 ∧ ∃ b c, i = .loadp b c ∧ s.reg b ≠ 0)

/-- R30: the output log only grows, by one byte for each OUT that does not fail, and no instruction can read
it: from any other log the step is the same but for the log, to which it appends the same bytes. The two runs get
the same answers of the host, logs 4 to 7. -/
def Obligations.OutputLogOnlyGrowsAndIsUnread : Prop :=
  (∀ (i : Instr) (s t : State), s.status = .running → exec i s = .next t →
    if t.status = .running ∧ i.opcode = 10 then ∃ v, t.outLog = s.outLog ++ [v]
    else t.outLog = s.outLog) ∧
  ∀ (i : Instr) (s t : State) (log : List Byte), exec i s = .next t →
    ∃ new, t.outLog = s.outLog ++ new ∧
      exec i { s with outLog := log } = .next { t with outLog := log ++ new }

/-- No instruction but IN touches the input stream, and IN takes at most its first byte (R29, R54, R62). -/
def Obligations.InputConsumedOnlyByIn : Prop :=
  ∀ (i : Instr) (s t : State), exec i s = .next t →
    (SameInput s t ∨ ∃ c, i = .inp c) ∧ t.inputEnded = s.inputEnded ∧
    (t.input = s.input ∨ ∃ v, s.input = v :: t.input)

/-- No instruction can tell a freed id from one never allocated: from any other recycling set, and with the same
answers of the host, the step is the same but for that set (R28, R41). It does not say that the id an ALLOC gets is
independent of the set: R31 (a) says that the set can influence the pool's answer, and the two runs here are given
the same answer, log 5. -/
def Obligations.RecyclingSetIsUnread : Prop :=
  ∀ (i : Instr) (s t : State) (l : List Word), exec i s = .next t →
    ∃ l', exec i { s with recycling := l } = .next { t with recycling := l' }

/-! ## Invariant, reset, outputs -/

/-- Every step keeps the invariant, from every state that has it: the pool's canonical form, id 0 active, the
recycling set disjoint from the active ids, no byte left after a met end of stream (R28, R34, R60; the
canonical form is the model's, log 1). -/
def Obligations.EveryStepKeepsInvariant : Prop :=
  ∀ s t : State, s.Inv → step s = .next t → t.Inv

/-- The reset state has the invariant. -/
def Obligations.ResetHasInvariant : Prop := State.reset.Inv

/-- Every launch has the invariant (R33, R193). -/
def Obligations.LaunchHasInvariant : Prop :=
  ∀ (prog : List Word) (input : List Byte) (ended : Bool) (s : State),
    State.launch prog input ended = some s → s.Inv

/-- The state a run starts from (R33, R190, R193; the bound 2^32 - 1 is decision D7, the outputs D2, the empty
recycling set and streams D26): every program of a permitted length has a launch, and in it every register and
pc is 0, the status is Running, the outputs are 0, segment 0 holds the program in order, no other id is
active, the recycling set and the output are empty and no input byte is consumed. -/
def Obligations.LaunchGivesResetStateWithProgram : Prop :=
  ∀ (prog : List Word) (input : List Byte) (ended : Bool),
    1 ≤ prog.length → prog.length ≤ 2 ^ 32 - 1 →
    ∃ s, State.launch prog input ended = some s ∧
      (∀ r, s.reg r = 0) ∧ s.pc = 0 ∧ s.status = .running ∧
      s.statusOut = 0 ∧ s.causeOut = 0 ∧ s.infoOut = ⟨0, 0, 0, 0⟩ ∧
      (∃ n, Memory.length? s.mem 0 = some n ∧ n.toNat = prog.length) ∧
      (∀ off : Word, off.toNat < prog.length →
        Memory.read? s.mem 0 off = some (prog.getD off.toNat 0)) ∧
      (∀ id : Word, id ≠ 0 → Memory.active s.mem id = false) ∧
      s.recycling = [] ∧ s.input = input ∧ s.inputEnded = ended ∧ s.inEof = false ∧ s.outLog = []

/-- The reset state itself: registers and pc 0, Running, only id 0 active, nothing freed, nothing emitted,
end of stream not met (R33). That segment 0 holds no word before a program is placed is the model's, log 2. -/
def Obligations.ResetStateValues : Prop :=
  (∀ r, State.reset.reg r = 0) ∧ State.reset.pc = 0 ∧ State.reset.status = .running ∧
  (∀ id : Word, Memory.active State.reset.mem id = true ↔ id = 0) ∧
  State.reset.recycling = [] ∧ State.reset.inEof = false ∧ State.reset.outLog = []

/-- `STATUS`, `CAUSE` and `INFO` in each of the three statuses, with the ten cause codes (R26, R162; decisions
D2, D3, log 14). -/
def Obligations.StatusOutputsShowRunStatus : Prop :=
  ∀ s : State,
    (s.status = .running → s.statusOut = 0 ∧ s.causeOut = 0 ∧ s.infoOut = ⟨0, 0, 0, 0⟩) ∧
    (s.status = .halted → s.statusOut = 1 ∧ s.causeOut = 0 ∧ s.infoOut = ⟨0, 0, 0, 0⟩) ∧
    ∀ (cause : FatalCause) (info : FatalInfo), s.status = .failed cause info →
      s.statusOut = 2 ∧ s.infoOut = info ∧
      s.causeOut =
        (match cause with
         | .pcOutOfBounds => 1
         | .undefinedOpcode => 2
         | .inactiveSegment => 3
         | .offsetOutOfBounds => 4
         | .freeZero => 5
         | .freeInactive => 6
         | .hostAllocFail => 7
         | .divideByZero => 8
         | .outputRange => 9
         | .outputWriteFail => 10)

/-- The process result is 0 after Halt, some number other than 0 after a failure, and there is none while the
run goes on (R172; which number is open, decision D21, log 15). -/
def Obligations.ProcessResultZeroOnlyOnHalt : Prop :=
  ∀ s : State, (s.status = .running → s.processResult = none) ∧
    (s.status = .halted → s.processResult = some 0) ∧
    ∀ (cause : FatalCause) (info : FatalInfo), s.status = .failed cause info →
      ∃ n, s.processResult = some n ∧ n ≠ 0
end

