-- ==== Sys2Proof/Laws/Encoding.lean ====
section
/-! SUPPORT. The fields of an encoded word are the operands it was made of, and the register numbering
goes both ways. -/

namespace Sys2Proof

theorem Reg.ofBits_toBits (r : Reg) : Reg.ofBits r.toBits = r := by cases r <;> rfl

theorem Reg.toBits_ofBits (n : BitVec 3) : (Reg.ofBits n).toBits = n := by
  revert n; decide

theorem opcodeField_encodeStandard (op : BitVec 4) (a b c : BitVec 3) :
    opcodeField (encodeStandard op a b c) = op := by
  unfold opcodeField encodeStandard
  ext i hi
  interval_cases i <;> simp

theorem fieldA_encodeStandard (op : BitVec 4) (a b c : BitVec 3) :
    fieldA (encodeStandard op a b c) = a := by
  unfold fieldA encodeStandard
  ext i hi
  interval_cases i <;> simp

theorem fieldB_encodeStandard (op : BitVec 4) (a b c : BitVec 3) :
    fieldB (encodeStandard op a b c) = b := by
  unfold fieldB encodeStandard
  ext i hi
  interval_cases i <;> simp

theorem fieldC_encodeStandard (op : BitVec 4) (a b c : BitVec 3) :
    fieldC (encodeStandard op a b c) = c := by
  unfold fieldC encodeStandard
  ext i hi
  interval_cases i <;> simp

theorem opcodeField_encodeSpecial (a : BitVec 3) (value : BitVec 25) :
    opcodeField (encodeSpecial a value) = 13 := by
  unfold opcodeField encodeSpecial
  ext i hi
  interval_cases i <;> simp

theorem fieldASpecial_encodeSpecial (a : BitVec 3) (value : BitVec 25) :
    fieldASpecial (encodeSpecial a value) = a := by
  unfold fieldASpecial encodeSpecial
  ext i hi
  interval_cases i <;> simp

theorem fieldValue_encodeSpecial (a : BitVec 3) (value : BitVec 25) :
    fieldValue (encodeSpecial a value) = value := by
  unfold fieldValue encodeSpecial
  ext i hi
  interval_cases i <;> simp

/-- A standard-format word has 0 in bits 27..9. -/
theorem encodeStandard_reserved (op : BitVec 4) (a b c : BitVec 3) (i : Nat) (h9 : 9 ≤ i) (h28 : i < 28) :
    (encodeStandard op a b c).getLsbD i = false := by
  have hc : c.getLsbD i = false := BitVec.getLsbD_of_ge c i (by omega)
  have hb : b.getLsbD (i - 3) = false := BitVec.getLsbD_of_ge b _ (by omega)
  have ha : a.getLsbD (i - 6) = false := BitVec.getLsbD_of_ge a _ (by omega)
  simp [encodeStandard, ha, hb, hc, h28]

end Sys2Proof
end

