-- ==== Sys2Proof/Laws/Memory.lean ====
section
/-! SUPPORT. The laws of the segment pool: a read after a write, what a write leaves alone, and that
every operation keeps the canonical form (log 1). -/

namespace Sys2Proof.Machine

/-! ## Sorted lists -/

section
variable {α : Type}

theorem sparseLookup_insert (k j : Nat) (v : α) (l : List (Nat × α)) :
    sparseLookup j (sparseInsert k v l) = if j = k then some v else sparseLookup j l := by
  induction l with
  | nil => simp [sparseInsert, sparseLookup]
  | cons e rest ih =>
    obtain ⟨i, u⟩ := e
    simp only [sparseInsert]
    split_ifs <;> simp only [sparseLookup, ih] <;> split_ifs <;> first | rfl | omega

theorem sparseLookup_erase (k j : Nat) (l : List (Nat × α)) :
    sparseLookup j (sparseErase k l) = if j = k then none else sparseLookup j l := by
  induction l with
  | nil => simp [sparseErase, sparseLookup]
  | cons e rest ih =>
    obtain ⟨i, u⟩ := e
    simp only [sparseErase]
    split_ifs <;> simp only [sparseLookup, ih] <;> split_ifs <;> first | rfl | omega

theorem sparseRising_cons (lo i : Nat) (u : α) (rest : List (Nat × α)) :
    sparseRising lo ((i, u) :: rest) = true ↔ lo ≤ i ∧ sparseRising (i + 1) rest = true := by
  simp [sparseRising]

theorem sparseRising_mono (l : List (Nat × α)) {lo lo' : Nat} (hle : lo' ≤ lo)
    (h : sparseRising lo l = true) : sparseRising lo' l = true := by
  cases l with
  | nil => rfl
  | cons e rest =>
    obtain ⟨i, u⟩ := e
    rw [sparseRising_cons] at h ⊢
    exact ⟨Nat.le_trans hle h.1, h.2⟩

theorem sparseRising_insert (k : Nat) (v : α) (l : List (Nat × α)) (lo : Nat) (hk : lo ≤ k)
    (h : sparseRising lo l = true) : sparseRising lo (sparseInsert k v l) = true := by
  induction l generalizing lo with
  | nil => simp [sparseInsert, sparseRising, hk]
  | cons e rest ih =>
    obtain ⟨i, u⟩ := e
    rw [sparseRising_cons] at h
    simp only [sparseInsert]
    split_ifs with h1 h2
    · rw [sparseRising_cons, sparseRising_cons]; exact ⟨hk, h1, h.2⟩
    · subst h2; rw [sparseRising_cons]; exact ⟨hk, h.2⟩
    · rw [sparseRising_cons]; exact ⟨h.1, ih (i + 1) (by omega) h.2⟩

theorem sparseRising_erase (k : Nat) (l : List (Nat × α)) (lo : Nat)
    (h : sparseRising lo l = true) : sparseRising lo (sparseErase k l) = true := by
  induction l generalizing lo with
  | nil => rfl
  | cons e rest ih =>
    obtain ⟨i, u⟩ := e
    rw [sparseRising_cons] at h
    simp only [sparseErase]
    split_ifs
    · exact ih lo (sparseRising_mono rest (by omega) h.2)
    · rw [sparseRising_cons]; exact ⟨h.1, ih (i + 1) h.2⟩

theorem sparseInsert_mem (k : Nat) (v : α) (l : List (Nat × α)) (e : Nat × α)
    (h : e ∈ sparseInsert k v l) : e = (k, v) ∨ e ∈ l := by
  induction l with
  | nil => simpa [sparseInsert] using h
  | cons d rest ih =>
    obtain ⟨i, u⟩ := d
    simp only [sparseInsert] at h
    split_ifs at h <;> simp only [List.mem_cons] at h ⊢ <;> grind

theorem sparseErase_mem (k : Nat) (l : List (Nat × α)) (e : Nat × α)
    (h : e ∈ sparseErase k l) : e ∈ l := by
  induction l with
  | nil => simp [sparseErase] at h
  | cons d rest ih =>
    obtain ⟨i, u⟩ := d
    simp only [sparseErase] at h
    split_ifs at h <;> simp only [List.mem_cons] at h ⊢ <;> grind

theorem sparseLookup_mem (k : Nat) (v : α) (l : List (Nat × α)) (h : sparseLookup k l = some v) :
    (k, v) ∈ l := by
  induction l with
  | nil => simp [sparseLookup] at h
  | cons d rest ih =>
    obtain ⟨i, u⟩ := d
    simp only [sparseLookup] at h
    split_ifs at h with hk
    · simp_all
    · exact List.mem_cons_of_mem _ (ih h)

/-- Where every key is at least `lo`, a smaller key is not listed. -/
theorem sparseLookup_below (l : List (Nat × α)) (lo k : Nat) (h : sparseRising lo l = true)
    (hk : k < lo) : sparseLookup k l = none := by
  induction l generalizing lo with
  | nil => rfl
  | cons d rest ih =>
    obtain ⟨i, u⟩ := d
    rw [sparseRising_cons] at h
    simp only [sparseLookup]
    rw [if_neg (by omega)]
    exact ih (i + 1) h.2 (by omega)

end

/-! ## One segment -/

theorem toNat_eq_iff (a b : Word) : a.toNat = b.toNat ↔ a = b := BitVec.toNat_inj

theorem sparseLookup_insert_word {α : Type} (k j : Word) (v : α) (l : List (Nat × α)) :
    sparseLookup j.toNat (sparseInsert k.toNat v l) = if j = k then some v else sparseLookup j.toNat l := by
  simp only [sparseLookup_insert, toNat_eq_iff]

theorem sparseLookup_erase_word {α : Type} (k j : Word) (l : List (Nat × α)) :
    sparseLookup j.toNat (sparseErase k.toNat l) = if j = k then none else sparseLookup j.toNat l := by
  simp only [sparseLookup_erase, toNat_eq_iff]

@[simp] theorem Segment.write_len (g : Segment) (off v : Word) : (g.write off v).len = g.len := rfl

/-- A read after a write: the written word at its offset, the old word at every other (R44). -/
theorem Segment.read_write (g : Segment) (off v off' : Word) :
    (g.write off v).read off' = if off' = off then v else g.read off' := by
  simp only [Segment.read, Segment.write]
  by_cases hv : v = 0
  · rw [if_pos hv, sparseLookup_erase_word]; split_ifs <;> simp [hv]
  · rw [if_neg hv, sparseLookup_insert_word]; split_ifs <;> rfl

/-- Every word of a fresh segment is 0 (R45). -/
@[simp] theorem Segment.read_fresh (n off : Word) : (Segment.mk n []).read off = 0 := rfl

theorem Segment.wf_iff (g : Segment) :
    g.wf = true ↔ sparseRising 0 g.cells = true ∧ ∀ e ∈ g.cells, e.1 < g.len.toNat ∧ e.2 ≠ 0 := by
  simp [Segment.wf]

theorem Segment.fresh_wf (n : Word) : (Segment.mk n []).wf = true := rfl

theorem Segment.write_wf (g : Segment) (off v : Word) (hoff : off < g.len) (h : g.wf = true) :
    (g.write off v).wf = true := by
  rw [Segment.wf_iff] at h ⊢
  obtain ⟨hr, hc⟩ := h
  simp only [Segment.write]
  by_cases hv : v = 0
  · rw [if_pos hv]
    exact ⟨sparseRising_erase _ _ _ hr, fun e he => hc e (sparseErase_mem _ _ _ he)⟩
  · rw [if_neg hv]
    refine ⟨sparseRising_insert _ _ _ _ (Nat.zero_le _) hr, fun e he => ?_⟩
    rcases sparseInsert_mem _ _ _ _ he with rfl | he
    · exact ⟨by simpa [BitVec.lt_def] using hoff, hv⟩
    · exact hc e he

/-! ## The pool -/

theorem Memory.active_iff (m : Memory) (id : Word) :
    Memory.active m id = true ↔ ∃ g, Memory.segment? m id = some g := by
  simp [Memory.active, Option.isSome_iff_exists]

/-- `length(id)` is defined exactly for the active ids (R9). -/
theorem Memory.active_eq_length? (m : Memory) (id : Word) :
    Memory.active m id = (Memory.length? m id).isSome := by
  simp [Memory.active, Memory.length?]

/-- `MemRead` is defined exactly where the id is active and the offset below the length (R44). -/
theorem Memory.read?_isSome (m : Memory) (id off : Word) :
    (Memory.read? m id off).isSome = true ↔ ∃ n, Memory.length? m id = some n ∧ off < n := by
  simp only [Memory.read?, Memory.length?]
  cases Memory.segment? m id with
  | none => simp
  | some g => by_cases h : off < g.len <;> simp [h]

theorem Memory.segment?_alloc (m : Memory) (id n j : Word) :
    Memory.segment? (Memory.alloc m id n) j =
      if j = id then some ⟨n, []⟩ else Memory.segment? m j := by
  exact sparseLookup_insert_word id j _ m

theorem Memory.segment?_free (m : Memory) (id j : Word) :
    Memory.segment? (Memory.free m id) j = if j = id then none else Memory.segment? m j := by
  exact sparseLookup_erase_word id j m

theorem Memory.segment?_write (m : Memory) (id off v j : Word) :
    Memory.segment? (Memory.write m id off v) j =
      if j = id then
        (Memory.segment? m id).map fun g => if off < g.len then g.write off v else g
      else Memory.segment? m j := by
  simp only [Memory.write]
  cases hg : Memory.segment? m id with
  | none => by_cases hj : j = id <;> simp [hj, hg]
  | some g =>
    simp only [Option.map_some]
    by_cases ho : off < g.len
    · simp only [if_pos ho]
      exact sparseLookup_insert_word id j _ m
    · simp only [if_neg ho]
      by_cases hj : j = id <;> simp [hj, hg]

theorem Memory.segment?_replaceZero (m : Memory) (src j : Word) (g : Segment)
    (hg : Memory.segment? m src = some g) :
    Memory.segment? (Memory.replaceZero m src) j = if j = 0 then some g else Memory.segment? m j := by
  simp only [Memory.replaceZero, hg]
  exact sparseLookup_insert_word 0 j g m

/-- A write leaves every length alone, and with it which ids are active (R44). -/
theorem Memory.length?_write (m : Memory) (id off v j : Word) :
    Memory.length? (Memory.write m id off v) j = Memory.length? m j := by
  simp only [Memory.length?, Memory.segment?_write]
  by_cases hj : j = id
  · subst hj
    rw [if_pos rfl]
    cases Memory.segment? m j with
    | none => rfl
    | some g => by_cases h : off < g.len <;> simp [h]
  · rw [if_neg hj]

/-- A read after a write in bounds: the written word at its address, the old answer at every other
address, in the same segment and in every other (R44, R66). -/
theorem Memory.read?_write (m : Memory) (id off v j o : Word) (n : Word)
    (hn : Memory.length? m id = some n) (ho : off < n) :
    Memory.read? (Memory.write m id off v) j o =
      if j = id ∧ o = off then some v else Memory.read? m j o := by
  obtain ⟨g, hg, rfl⟩ : ∃ g, Memory.segment? m id = some g ∧ g.len = n := by
    simpa [Memory.length?] using hn
  simp only [Memory.read?, Memory.segment?_write]
  by_cases hj : j = id
  · subst hj
    simp only [if_pos, hg, Option.map_some, if_pos ho, Segment.write_len, Segment.read_write, true_and]
    by_cases hoo : o = off
    · subst hoo; simp [ho]
    · simp [hoo]
  · simp [hj]

/-! ## The canonical form is kept -/

theorem Memory.wf_iff (m : Memory) :
    Memory.wf m = true ↔ sparseRising 0 m = true ∧ ∀ e ∈ m, e.1 < 2 ^ 32 ∧ e.2.wf = true := by
  simp [Memory.wf]

theorem Memory.wf_segment (m : Memory) (id : Word) (g : Segment) (h : Memory.wf m = true)
    (hg : Memory.segment? m id = some g) : g.wf = true :=
  (((Memory.wf_iff m).1 h).2 _ (sparseLookup_mem _ _ _ hg)).2

theorem Memory.insert_wf (m : Memory) (id : Word) (g : Segment) (h : Memory.wf m = true)
    (hg : g.wf = true) : Memory.wf (sparseInsert id.toNat g m) = true := by
  rw [Memory.wf_iff] at h ⊢
  refine ⟨sparseRising_insert _ _ _ _ (Nat.zero_le _) h.1, fun e he => ?_⟩
  rcases sparseInsert_mem _ _ _ _ he with rfl | he
  · exact ⟨id.isLt, hg⟩
  · exact h.2 e he

theorem Memory.alloc_wf (m : Memory) (id n : Word) (h : Memory.wf m = true) :
    Memory.wf (Memory.alloc m id n) = true :=
  Memory.insert_wf m id _ h (Segment.fresh_wf n)

theorem Memory.free_wf (m : Memory) (id : Word) (h : Memory.wf m = true) :
    Memory.wf (Memory.free m id) = true := by
  rw [Memory.wf_iff] at h ⊢
  exact ⟨sparseRising_erase _ _ _ h.1, fun e he => h.2 e (sparseErase_mem _ _ _ he)⟩

theorem Memory.write_wf (m : Memory) (id off v : Word) (h : Memory.wf m = true) :
    Memory.wf (Memory.write m id off v) = true := by
  simp only [Memory.write]
  cases hg : Memory.segment? m id with
  | none => exact h
  | some g =>
    by_cases ho : off < g.len
    · simp only [if_pos ho]
      exact Memory.insert_wf m id _ h (Segment.write_wf g off v ho (Memory.wf_segment m id g h hg))
    · simpa only [if_neg ho] using h

theorem Memory.replaceZero_wf (m : Memory) (src : Word) (h : Memory.wf m = true) :
    Memory.wf (Memory.replaceZero m src) = true := by
  simp only [Memory.replaceZero]
  cases hg : Memory.segment? m src with
  | none => exact h
  | some g => exact Memory.insert_wf m 0 g h (Memory.wf_segment m src g h hg)

/-- The memory of the reset state has the canonical form. -/
theorem reset_memory_wf : Memory.wf State.reset.mem = true := by decide

/-! ## Content of a launched program -/

theorem cellsOf_rising (words : List Word) (k : Nat) : sparseRising k (cellsOf k words) = true := by
  induction words generalizing k with
  | nil => rfl
  | cons w rest ih =>
    simp only [cellsOf]
    split_ifs
    · exact sparseRising_mono _ (Nat.le_succ k) (ih (k + 1))
    · rw [sparseRising_cons]; exact ⟨Nat.le_refl k, ih (k + 1)⟩

theorem cellsOf_mem (words : List Word) (k : Nat) (e : Nat × Word) (h : e ∈ cellsOf k words) :
    e.1 < k + words.length ∧ e.2 ≠ 0 := by
  induction words generalizing k with
  | nil => simp [cellsOf] at h
  | cons w rest ih =>
    simp only [cellsOf] at h
    simp only [List.length_cons]
    split_ifs at h with hw
    · obtain ⟨h1, h2⟩ := ih (k + 1) h
      exact ⟨by omega, h2⟩
    · rcases List.mem_cons.1 h with rfl | h
      · exact ⟨by simp, hw⟩
      · obtain ⟨h1, h2⟩ := ih (k + 1) h
        exact ⟨by omega, h2⟩

/-- Offset `k + i` of the cells made from `k` on holds the `i`-th word of the list. -/
theorem cellsOf_lookup (words : List Word) (k i : Nat) :
    (sparseLookup (k + i) (cellsOf k words)).getD 0 = words.getD i 0 := by
  induction words generalizing k i with
  | nil => simp [cellsOf, sparseLookup]
  | cons w rest ih =>
    simp only [cellsOf]
    cases i with
    | zero =>
      split_ifs with hw
      · rw [Nat.add_zero, sparseLookup_below _ (k + 1) k (cellsOf_rising rest (k + 1)) (Nat.lt_succ_self k)]
        simp [hw]
      · simp [sparseLookup]
    | succ i =>
      have hi : k + (i + 1) = k + 1 + i := by omega
      split_ifs with hw
      · rw [hi, ih (k + 1) i]; simp
      · simp only [sparseLookup]
        rw [if_neg (by omega), hi, ih (k + 1) i]; simp

end Sys2Proof.Machine
end

