-- ==== Sys2Proof/Laws/State.lean ====
section
/-! SUPPORT. One lemma per field per update of the state, each true by unfolding, and the reads of registers
after an update. Proofs cite these and do not unfold a record update. -/

namespace Sys2Proof.Machine

/-! ### setReg: `x[r] <- v` -/

@[simp] theorem setReg_regs (s : State) (r : Reg) (v : Word) : (s.setReg r v).regs = s.regs.set r v := rfl
@[simp] theorem setReg_pc (s : State) (r : Reg) (v : Word) : (s.setReg r v).pc = s.pc := rfl
@[simp] theorem setReg_status (s : State) (r : Reg) (v : Word) : (s.setReg r v).status = s.status := rfl
@[simp] theorem setReg_mem (s : State) (r : Reg) (v : Word) : (s.setReg r v).mem = s.mem := rfl
@[simp] theorem setReg_recycling (s : State) (r : Reg) (v : Word) : (s.setReg r v).recycling = s.recycling :=
    rfl
@[simp] theorem setReg_input (s : State) (r : Reg) (v : Word) : (s.setReg r v).input = s.input := rfl
@[simp] theorem setReg_inputEnded (s : State) (r : Reg) (v : Word) : (s.setReg r v).inputEnded = s.inputEnded :=
    rfl
@[simp] theorem setReg_inEof (s : State) (r : Reg) (v : Word) : (s.setReg r v).inEof = s.inEof := rfl
@[simp] theorem setReg_outLog (s : State) (r : Reg) (v : Word) : (s.setReg r v).outLog = s.outLog := rfl
@[simp] theorem setReg_allocAnswers (s : State) (r : Reg) (v : Word) : (s.setReg r v).allocAnswers = s.allocAnswers :=
    rfl
@[simp] theorem setReg_copyFails (s : State) (r : Reg) (v : Word) : (s.setReg r v).copyFails = s.copyFails :=
    rfl
@[simp] theorem setReg_writeFails (s : State) (r : Reg) (v : Word) : (s.setReg r v).writeFails = s.writeFails :=
    rfl
@[simp] theorem setReg_draws (s : State) (r : Reg) (v : Word) : (s.setReg r v).draws = s.draws := rfl

/-! ### setPc: `pc <- t` -/

@[simp] theorem setPc_regs (s : State) (t : Word) : (s.setPc t).regs = s.regs := rfl
@[simp] theorem setPc_pc (s : State) (t : Word) : (s.setPc t).pc = t := rfl
@[simp] theorem setPc_status (s : State) (t : Word) : (s.setPc t).status = s.status := rfl
@[simp] theorem setPc_mem (s : State) (t : Word) : (s.setPc t).mem = s.mem := rfl
@[simp] theorem setPc_recycling (s : State) (t : Word) : (s.setPc t).recycling = s.recycling := rfl
@[simp] theorem setPc_input (s : State) (t : Word) : (s.setPc t).input = s.input := rfl
@[simp] theorem setPc_inputEnded (s : State) (t : Word) : (s.setPc t).inputEnded = s.inputEnded := rfl
@[simp] theorem setPc_inEof (s : State) (t : Word) : (s.setPc t).inEof = s.inEof := rfl
@[simp] theorem setPc_outLog (s : State) (t : Word) : (s.setPc t).outLog = s.outLog := rfl
@[simp] theorem setPc_allocAnswers (s : State) (t : Word) : (s.setPc t).allocAnswers = s.allocAnswers := rfl
@[simp] theorem setPc_copyFails (s : State) (t : Word) : (s.setPc t).copyFails = s.copyFails := rfl
@[simp] theorem setPc_writeFails (s : State) (t : Word) : (s.setPc t).writeFails = s.writeFails := rfl
@[simp] theorem setPc_draws (s : State) (t : Word) : (s.setPc t).draws = s.draws := rfl
@[simp] theorem setPc_reg (s : State) (t : Word) (r' : Reg) : (s.setPc t).reg r' = s.reg r' := rfl

/-! ### advance: `pc <- pc + 1` -/

@[simp] theorem advance_regs (s : State) : s.advance.regs = s.regs := rfl
@[simp] theorem advance_pc (s : State) : s.advance.pc = s.pc + 1 := rfl
@[simp] theorem advance_status (s : State) : s.advance.status = s.status := rfl
@[simp] theorem advance_mem (s : State) : s.advance.mem = s.mem := rfl
@[simp] theorem advance_recycling (s : State) : s.advance.recycling = s.recycling := rfl
@[simp] theorem advance_input (s : State) : s.advance.input = s.input := rfl
@[simp] theorem advance_inputEnded (s : State) : s.advance.inputEnded = s.inputEnded := rfl
@[simp] theorem advance_inEof (s : State) : s.advance.inEof = s.inEof := rfl
@[simp] theorem advance_outLog (s : State) : s.advance.outLog = s.outLog := rfl
@[simp] theorem advance_allocAnswers (s : State) : s.advance.allocAnswers = s.allocAnswers := rfl
@[simp] theorem advance_copyFails (s : State) : s.advance.copyFails = s.copyFails := rfl
@[simp] theorem advance_writeFails (s : State) : s.advance.writeFails = s.writeFails := rfl
@[simp] theorem advance_draws (s : State) : s.advance.draws = s.draws := rfl
@[simp] theorem advance_reg (s : State) (r' : Reg) : s.advance.reg r' = s.reg r' := rfl

/-! ### raiseFatal: taking a fatal failure -/

@[simp] theorem raiseFatal_regs (s : State) (cause : FatalCause) (op : BitVec 4) (id off : Word) : (s.raiseFatal cause op id off).regs = s.regs :=
    rfl
@[simp] theorem raiseFatal_pc (s : State) (cause : FatalCause) (op : BitVec 4) (id off : Word) : (s.raiseFatal cause op id off).pc = s.pc :=
    rfl
@[simp] theorem raiseFatal_status (s : State) (cause : FatalCause) (op : BitVec 4) (id off : Word) : (s.raiseFatal cause op id off).status = .failed cause ⟨op, s.pc, id, off⟩ :=
    rfl
@[simp] theorem raiseFatal_mem (s : State) (cause : FatalCause) (op : BitVec 4) (id off : Word) : (s.raiseFatal cause op id off).mem = s.mem :=
    rfl
@[simp] theorem raiseFatal_recycling (s : State) (cause : FatalCause) (op : BitVec 4) (id off : Word) : (s.raiseFatal cause op id off).recycling = s.recycling :=
    rfl
@[simp] theorem raiseFatal_input (s : State) (cause : FatalCause) (op : BitVec 4) (id off : Word) : (s.raiseFatal cause op id off).input = s.input :=
    rfl
@[simp] theorem raiseFatal_inputEnded (s : State) (cause : FatalCause) (op : BitVec 4) (id off : Word) : (s.raiseFatal cause op id off).inputEnded = s.inputEnded :=
    rfl
@[simp] theorem raiseFatal_inEof (s : State) (cause : FatalCause) (op : BitVec 4) (id off : Word) : (s.raiseFatal cause op id off).inEof = s.inEof :=
    rfl
@[simp] theorem raiseFatal_outLog (s : State) (cause : FatalCause) (op : BitVec 4) (id off : Word) : (s.raiseFatal cause op id off).outLog = s.outLog :=
    rfl
@[simp] theorem raiseFatal_allocAnswers (s : State) (cause : FatalCause) (op : BitVec 4) (id off : Word) : (s.raiseFatal cause op id off).allocAnswers = s.allocAnswers :=
    rfl
@[simp] theorem raiseFatal_copyFails (s : State) (cause : FatalCause) (op : BitVec 4) (id off : Word) : (s.raiseFatal cause op id off).copyFails = s.copyFails :=
    rfl
@[simp] theorem raiseFatal_writeFails (s : State) (cause : FatalCause) (op : BitVec 4) (id off : Word) : (s.raiseFatal cause op id off).writeFails = s.writeFails :=
    rfl
@[simp] theorem raiseFatal_draws (s : State) (cause : FatalCause) (op : BitVec 4) (id off : Word) : (s.raiseFatal cause op id off).draws = s.draws :=
    rfl
@[simp] theorem raiseFatal_reg (s : State) (cause : FatalCause) (op : BitVec 4) (id off : Word) (r' : Reg) : (s.raiseFatal cause op id off).reg r' = s.reg r' := rfl

/-! ### halt: `status <- Halted` -/

@[simp] theorem halt_regs (s : State) : s.halt.regs = s.regs := rfl
@[simp] theorem halt_pc (s : State) : s.halt.pc = s.pc := rfl
@[simp] theorem halt_status (s : State) : s.halt.status = .halted := rfl
@[simp] theorem halt_mem (s : State) : s.halt.mem = s.mem := rfl
@[simp] theorem halt_recycling (s : State) : s.halt.recycling = s.recycling := rfl
@[simp] theorem halt_input (s : State) : s.halt.input = s.input := rfl
@[simp] theorem halt_inputEnded (s : State) : s.halt.inputEnded = s.inputEnded := rfl
@[simp] theorem halt_inEof (s : State) : s.halt.inEof = s.inEof := rfl
@[simp] theorem halt_outLog (s : State) : s.halt.outLog = s.outLog := rfl
@[simp] theorem halt_allocAnswers (s : State) : s.halt.allocAnswers = s.allocAnswers := rfl
@[simp] theorem halt_copyFails (s : State) : s.halt.copyFails = s.copyFails := rfl
@[simp] theorem halt_writeFails (s : State) : s.halt.writeFails = s.writeFails := rfl
@[simp] theorem halt_draws (s : State) : s.halt.draws = s.draws := rfl
@[simp] theorem halt_reg (s : State) (r' : Reg) : s.halt.reg r' = s.reg r' := rfl

/-! ### allocate: `Alloc(n)` answering `Ok(id)` -/

@[simp] theorem allocate_regs (s : State) (id n : Word) : (s.allocate id n).regs = s.regs := rfl
@[simp] theorem allocate_pc (s : State) (id n : Word) : (s.allocate id n).pc = s.pc := rfl
@[simp] theorem allocate_status (s : State) (id n : Word) : (s.allocate id n).status = s.status := rfl
@[simp] theorem allocate_mem (s : State) (id n : Word) : (s.allocate id n).mem = Memory.alloc s.mem id n :=
    rfl
@[simp] theorem allocate_recycling (s : State) (id n : Word) : (s.allocate id n).recycling = s.recycling.filter (· ≠ id) :=
    rfl
@[simp] theorem allocate_input (s : State) (id n : Word) : (s.allocate id n).input = s.input := rfl
@[simp] theorem allocate_inputEnded (s : State) (id n : Word) : (s.allocate id n).inputEnded = s.inputEnded :=
    rfl
@[simp] theorem allocate_inEof (s : State) (id n : Word) : (s.allocate id n).inEof = s.inEof := rfl
@[simp] theorem allocate_outLog (s : State) (id n : Word) : (s.allocate id n).outLog = s.outLog := rfl
@[simp] theorem allocate_allocAnswers (s : State) (id n : Word) : (s.allocate id n).allocAnswers = s.allocAnswers.tail :=
    rfl
@[simp] theorem allocate_copyFails (s : State) (id n : Word) : (s.allocate id n).copyFails = s.copyFails :=
    rfl
@[simp] theorem allocate_writeFails (s : State) (id n : Word) : (s.allocate id n).writeFails = s.writeFails :=
    rfl
@[simp] theorem allocate_draws (s : State) (id n : Word) : (s.allocate id n).draws = s.draws + 1 := rfl
@[simp] theorem allocate_reg (s : State) (id n : Word) (r' : Reg) : (s.allocate id n).reg r' = s.reg r' := rfl

/-! ### release: `Free(id)` -/

@[simp] theorem release_regs (s : State) (id : Word) : (s.release id).regs = s.regs := rfl
@[simp] theorem release_pc (s : State) (id : Word) : (s.release id).pc = s.pc := rfl
@[simp] theorem release_status (s : State) (id : Word) : (s.release id).status = s.status := rfl
@[simp] theorem release_mem (s : State) (id : Word) : (s.release id).mem = Memory.free s.mem id := rfl
@[simp] theorem release_recycling (s : State) (id : Word) : (s.release id).recycling = id :: s.recycling :=
    rfl
@[simp] theorem release_input (s : State) (id : Word) : (s.release id).input = s.input := rfl
@[simp] theorem release_inputEnded (s : State) (id : Word) : (s.release id).inputEnded = s.inputEnded := rfl
@[simp] theorem release_inEof (s : State) (id : Word) : (s.release id).inEof = s.inEof := rfl
@[simp] theorem release_outLog (s : State) (id : Word) : (s.release id).outLog = s.outLog := rfl
@[simp] theorem release_allocAnswers (s : State) (id : Word) : (s.release id).allocAnswers = s.allocAnswers :=
    rfl
@[simp] theorem release_copyFails (s : State) (id : Word) : (s.release id).copyFails = s.copyFails := rfl
@[simp] theorem release_writeFails (s : State) (id : Word) : (s.release id).writeFails = s.writeFails := rfl
@[simp] theorem release_draws (s : State) (id : Word) : (s.release id).draws = s.draws := rfl
@[simp] theorem release_reg (s : State) (id : Word) (r' : Reg) : (s.release id).reg r' = s.reg r' := rfl

/-! ### store: `MemWrite(id, off, v)` -/

@[simp] theorem store_regs (s : State) (id off v : Word) : (s.store id off v).regs = s.regs := rfl
@[simp] theorem store_pc (s : State) (id off v : Word) : (s.store id off v).pc = s.pc := rfl
@[simp] theorem store_status (s : State) (id off v : Word) : (s.store id off v).status = s.status := rfl
@[simp] theorem store_mem (s : State) (id off v : Word) : (s.store id off v).mem = Memory.write s.mem id off v :=
    rfl
@[simp] theorem store_recycling (s : State) (id off v : Word) : (s.store id off v).recycling = s.recycling :=
    rfl
@[simp] theorem store_input (s : State) (id off v : Word) : (s.store id off v).input = s.input := rfl
@[simp] theorem store_inputEnded (s : State) (id off v : Word) : (s.store id off v).inputEnded = s.inputEnded :=
    rfl
@[simp] theorem store_inEof (s : State) (id off v : Word) : (s.store id off v).inEof = s.inEof := rfl
@[simp] theorem store_outLog (s : State) (id off v : Word) : (s.store id off v).outLog = s.outLog := rfl
@[simp] theorem store_allocAnswers (s : State) (id off v : Word) : (s.store id off v).allocAnswers = s.allocAnswers :=
    rfl
@[simp] theorem store_copyFails (s : State) (id off v : Word) : (s.store id off v).copyFails = s.copyFails :=
    rfl
@[simp] theorem store_writeFails (s : State) (id off v : Word) : (s.store id off v).writeFails = s.writeFails :=
    rfl
@[simp] theorem store_draws (s : State) (id off v : Word) : (s.store id off v).draws = s.draws := rfl
@[simp] theorem store_reg (s : State) (id off v : Word) (r' : Reg) : (s.store id off v).reg r' = s.reg r' := rfl

/-! ### replaceProgram: `ReplaceZero(src)` answering `Ok` -/

@[simp] theorem replaceProgram_regs (s : State) (src : Word) : (s.replaceProgram src).regs = s.regs := rfl
@[simp] theorem replaceProgram_pc (s : State) (src : Word) : (s.replaceProgram src).pc = s.pc := rfl
@[simp] theorem replaceProgram_status (s : State) (src : Word) : (s.replaceProgram src).status = s.status :=
    rfl
@[simp] theorem replaceProgram_mem (s : State) (src : Word) : (s.replaceProgram src).mem = Memory.replaceZero s.mem src :=
    rfl
@[simp] theorem replaceProgram_recycling (s : State) (src : Word) : (s.replaceProgram src).recycling = s.recycling :=
    rfl
@[simp] theorem replaceProgram_input (s : State) (src : Word) : (s.replaceProgram src).input = s.input := rfl
@[simp] theorem replaceProgram_inputEnded (s : State) (src : Word) : (s.replaceProgram src).inputEnded = s.inputEnded :=
    rfl
@[simp] theorem replaceProgram_inEof (s : State) (src : Word) : (s.replaceProgram src).inEof = s.inEof := rfl
@[simp] theorem replaceProgram_outLog (s : State) (src : Word) : (s.replaceProgram src).outLog = s.outLog :=
    rfl
@[simp] theorem replaceProgram_allocAnswers (s : State) (src : Word) : (s.replaceProgram src).allocAnswers = s.allocAnswers :=
    rfl
@[simp] theorem replaceProgram_copyFails (s : State) (src : Word) : (s.replaceProgram src).copyFails = s.copyFails.tail :=
    rfl
@[simp] theorem replaceProgram_writeFails (s : State) (src : Word) : (s.replaceProgram src).writeFails = s.writeFails :=
    rfl
@[simp] theorem replaceProgram_draws (s : State) (src : Word) : (s.replaceProgram src).draws = s.draws + 1 :=
    rfl
@[simp] theorem replaceProgram_reg (s : State) (src : Word) (r' : Reg) : (s.replaceProgram src).reg r' = s.reg r' := rfl

/-! ### emit: `OutByte(b)` answering `Ok` -/

@[simp] theorem emit_regs (s : State) (b : Byte) : (s.emit b).regs = s.regs := rfl
@[simp] theorem emit_pc (s : State) (b : Byte) : (s.emit b).pc = s.pc := rfl
@[simp] theorem emit_status (s : State) (b : Byte) : (s.emit b).status = s.status := rfl
@[simp] theorem emit_mem (s : State) (b : Byte) : (s.emit b).mem = s.mem := rfl
@[simp] theorem emit_recycling (s : State) (b : Byte) : (s.emit b).recycling = s.recycling := rfl
@[simp] theorem emit_input (s : State) (b : Byte) : (s.emit b).input = s.input := rfl
@[simp] theorem emit_inputEnded (s : State) (b : Byte) : (s.emit b).inputEnded = s.inputEnded := rfl
@[simp] theorem emit_inEof (s : State) (b : Byte) : (s.emit b).inEof = s.inEof := rfl
@[simp] theorem emit_outLog (s : State) (b : Byte) : (s.emit b).outLog = s.outLog ++ [b] := rfl
@[simp] theorem emit_allocAnswers (s : State) (b : Byte) : (s.emit b).allocAnswers = s.allocAnswers := rfl
@[simp] theorem emit_copyFails (s : State) (b : Byte) : (s.emit b).copyFails = s.copyFails := rfl
@[simp] theorem emit_writeFails (s : State) (b : Byte) : (s.emit b).writeFails = s.writeFails.tail := rfl
@[simp] theorem emit_draws (s : State) (b : Byte) : (s.emit b).draws = s.draws + 1 := rfl
@[simp] theorem emit_reg (s : State) (b : Byte) (r' : Reg) : (s.emit b).reg r' = s.reg r' := rfl

/-! ### takeByte: one input byte is consumed -/

@[simp] theorem takeByte_regs (s : State) : s.takeByte.regs = s.regs := rfl
@[simp] theorem takeByte_pc (s : State) : s.takeByte.pc = s.pc := rfl
@[simp] theorem takeByte_status (s : State) : s.takeByte.status = s.status := rfl
@[simp] theorem takeByte_mem (s : State) : s.takeByte.mem = s.mem := rfl
@[simp] theorem takeByte_recycling (s : State) : s.takeByte.recycling = s.recycling := rfl
@[simp] theorem takeByte_input (s : State) : s.takeByte.input = s.input.tail := rfl
@[simp] theorem takeByte_inputEnded (s : State) : s.takeByte.inputEnded = s.inputEnded := rfl
@[simp] theorem takeByte_inEof (s : State) : s.takeByte.inEof = s.inEof := rfl
@[simp] theorem takeByte_outLog (s : State) : s.takeByte.outLog = s.outLog := rfl
@[simp] theorem takeByte_allocAnswers (s : State) : s.takeByte.allocAnswers = s.allocAnswers := rfl
@[simp] theorem takeByte_copyFails (s : State) : s.takeByte.copyFails = s.copyFails := rfl
@[simp] theorem takeByte_writeFails (s : State) : s.takeByte.writeFails = s.writeFails := rfl
@[simp] theorem takeByte_draws (s : State) : s.takeByte.draws = s.draws := rfl
@[simp] theorem takeByte_reg (s : State) (r' : Reg) : s.takeByte.reg r' = s.reg r' := rfl

/-! ### meetEof: `in_eof <- true` -/

@[simp] theorem meetEof_regs (s : State) : s.meetEof.regs = s.regs := rfl
@[simp] theorem meetEof_pc (s : State) : s.meetEof.pc = s.pc := rfl
@[simp] theorem meetEof_status (s : State) : s.meetEof.status = s.status := rfl
@[simp] theorem meetEof_mem (s : State) : s.meetEof.mem = s.mem := rfl
@[simp] theorem meetEof_recycling (s : State) : s.meetEof.recycling = s.recycling := rfl
@[simp] theorem meetEof_input (s : State) : s.meetEof.input = s.input := rfl
@[simp] theorem meetEof_inputEnded (s : State) : s.meetEof.inputEnded = s.inputEnded := rfl
@[simp] theorem meetEof_inEof (s : State) : s.meetEof.inEof = true := rfl
@[simp] theorem meetEof_outLog (s : State) : s.meetEof.outLog = s.outLog := rfl
@[simp] theorem meetEof_allocAnswers (s : State) : s.meetEof.allocAnswers = s.allocAnswers := rfl
@[simp] theorem meetEof_copyFails (s : State) : s.meetEof.copyFails = s.copyFails := rfl
@[simp] theorem meetEof_writeFails (s : State) : s.meetEof.writeFails = s.writeFails := rfl
@[simp] theorem meetEof_draws (s : State) : s.meetEof.draws = s.draws := rfl
@[simp] theorem meetEof_reg (s : State) (r' : Reg) : s.meetEof.reg r' = s.reg r' := rfl

/-! ### finishWith: a register result, then `pc <- pc + 1` -/

@[simp] theorem finishWith_regs (s : State) (a : Reg) (v : Word) : (s.finishWith a v).regs = s.regs.set a v :=
    rfl
@[simp] theorem finishWith_pc (s : State) (a : Reg) (v : Word) : (s.finishWith a v).pc = s.pc + 1 := rfl
@[simp] theorem finishWith_status (s : State) (a : Reg) (v : Word) : (s.finishWith a v).status = s.status :=
    rfl
@[simp] theorem finishWith_mem (s : State) (a : Reg) (v : Word) : (s.finishWith a v).mem = s.mem := rfl
@[simp] theorem finishWith_recycling (s : State) (a : Reg) (v : Word) : (s.finishWith a v).recycling = s.recycling :=
    rfl
@[simp] theorem finishWith_input (s : State) (a : Reg) (v : Word) : (s.finishWith a v).input = s.input := rfl
@[simp] theorem finishWith_inputEnded (s : State) (a : Reg) (v : Word) : (s.finishWith a v).inputEnded = s.inputEnded :=
    rfl
@[simp] theorem finishWith_inEof (s : State) (a : Reg) (v : Word) : (s.finishWith a v).inEof = s.inEof := rfl
@[simp] theorem finishWith_outLog (s : State) (a : Reg) (v : Word) : (s.finishWith a v).outLog = s.outLog :=
    rfl
@[simp] theorem finishWith_allocAnswers (s : State) (a : Reg) (v : Word) : (s.finishWith a v).allocAnswers = s.allocAnswers :=
    rfl
@[simp] theorem finishWith_copyFails (s : State) (a : Reg) (v : Word) : (s.finishWith a v).copyFails = s.copyFails :=
    rfl
@[simp] theorem finishWith_writeFails (s : State) (a : Reg) (v : Word) : (s.finishWith a v).writeFails = s.writeFails :=
    rfl
@[simp] theorem finishWith_draws (s : State) (a : Reg) (v : Word) : (s.finishWith a v).draws = s.draws := rfl

/-! ### Register reads -/

theorem RegFile.get_set (f : RegFile) (a r : Reg) (v : Word) :
    (f.set a v).get r = if r = a then v else f.get r := by
  cases a <;> cases r <;> rfl

@[simp] theorem setReg_reg (s : State) (a r : Reg) (v : Word) :
    (s.setReg a v).reg r = if r = a then v else s.reg r :=
  RegFile.get_set s.regs a r v

@[simp] theorem finishWith_reg (s : State) (a r : Reg) (v : Word) :
    (s.finishWith a v).reg r = if r = a then v else s.reg r :=
  RegFile.get_set s.regs a r v

/-- Two register files that read alike are the same. -/
theorem RegFile.ext_get (f g : RegFile) (h : ∀ r, f.get r = g.get r) : f = g := by
  cases f; cases g
  have h0 := h .x0; have h1 := h .x1; have h2 := h .x2; have h3 := h .x3
  have h4 := h .x4; have h5 := h .x5; have h6 := h .x6; have h7 := h .x7
  simp only [RegFile.get] at h0 h1 h2 h3 h4 h5 h6 h7
  subst h0 h1 h2 h3 h4 h5 h6 h7
  rfl

end Sys2Proof.Machine
end

