-- ==== Sys2Proof/Laws/Ops.lean ====
section
/-! SUPPORT. For each shared operation, once, everything it can do; proofs cite these instead of
unfolding the operation. -/

namespace Sys2Proof.Machine

/-! ## Operands and conditions -/

theorem immediate_toNat (value : BitVec 25) : (immediate value).toNat = value.toNat := by
  have h := value.isLt
  simp only [immediate, BitVec.toNat_setWidth]
  omega

theorem wordOfByte_toNat (b : Byte) : (wordOfByte b).toNat = b.toNat := by
  have h := b.isLt
  simp only [wordOfByte, BitVec.toNat_setWidth]
  omega

theorem byteOfWord_toNat (v : Word) (h : v.toNat ≤ 255) : (byteOfWord v).toNat = v.toNat := by
  simp only [byteOfWord, BitVec.toNat_setWidth]
  omega

theorem conditionHolds_iff (c : Word) : conditionHolds c = true ↔ c ≠ 0 := by simp [conditionHolds]

theorem divisorIsZero_iff (c : Word) : divisorIsZero c = true ↔ c = 0 := by simp [divisorIsZero]

theorem byteInRange_iff (v : Word) : byteInRange v = true ↔ v.toNat ≤ 255 := by
  simp [byteInRange, BitVec.le_def]

/-- The three answers of the access check, each with exactly when it is given (R51). -/
theorem checkAccess_inactive_iff (m : Memory) (id off : Word) :
    checkAccess m id off = .inactive ↔ Memory.length? m id = none := by
  unfold checkAccess
  split
  · simp_all
  · split <;> simp_all

theorem checkAccess_outOfBounds_iff (m : Memory) (id off : Word) :
    checkAccess m id off = .outOfBounds ↔ ∃ n, Memory.length? m id = some n ∧ n.toNat ≤ off.toNat := by
  unfold checkAccess
  split
  · simp_all
  · split <;> simp_all [BitVec.lt_def]

theorem checkAccess_pass_iff (m : Memory) (id off : Word) :
    checkAccess m id off = .pass ↔ ∃ n, Memory.length? m id = some n ∧ off.toNat < n.toNat := by
  unfold checkAccess
  split
  · simp_all
  · split <;> simp_all [BitVec.lt_def]

/-- Where the check passes, the word loaded is what `MemRead` gives. -/
theorem read?_of_pass (m : Memory) (id off : Word) (h : checkAccess m id off = .pass) :
    Memory.read? m id off = some (loadWord m id off) := by
  obtain ⟨n, hn, ho⟩ := (checkAccess_pass_iff m id off).1 h
  have hs : (Memory.read? m id off).isSome = true :=
    (Memory.read?_isSome m id off).2 ⟨n, hn, BitVec.lt_def.2 ho⟩
  obtain ⟨w, hw⟩ := Option.isSome_iff_exists.1 hs
  simp [loadWord, hw]

/-! ## The pool's answers -/

/-- An id that is granted is the pool's answer, nonzero and not active (R45). -/
theorem allocGranted_eq_some_iff (s : State) (id : Word) :
    s.allocGranted = some id ↔
      s.allocAnswer = some id ∧ id ≠ 0 ∧ Memory.active s.mem id = false := by
  unfold State.allocGranted
  split
  · next j hj =>
    split_ifs with h
    · rw [hj]
      constructor
      · intro e; cases e; exact ⟨rfl, h⟩
      · exact fun e => e.1
    · rw [hj]
      constructor
      · intro e; cases e
      · rintro ⟨e, h'⟩; cases e; exact absurd h' h
  · next hj => simp [hj]

/-- An answer a run has named is the one the pool gives. -/
theorem allocAnswer_named (s : State) (a : Option Word) (rest : List (Option Word))
    (h : s.allocAnswers = a :: rest) : s.allocAnswer = a := by
  simp [State.allocAnswer, h]

theorem copyFailsNow_named (s : State) (a : Bool) (rest : List Bool) (h : s.copyFails = a :: rest) :
    s.copyFailsNow = a := by
  simp [State.copyFailsNow, h]

theorem writeFailsNow_named (s : State) (a : Bool) (rest : List Bool) (h : s.writeFails = a :: rest) :
    s.writeFailsNow = a := by
  simp [State.writeFailsNow, h]

/-! ## The input stream -/

theorem inAnswer_byte_iff (s : State) (b : Byte) :
    s.inAnswer = .byte b ↔ s.inEof = false ∧ ∃ rest, s.input = b :: rest := by
  unfold State.inAnswer
  cases s.inEof <;> cases s.input <;> cases s.inputEnded <;> simp

theorem inAnswer_eof_iff (s : State) :
    s.inAnswer = .eof ↔ s.inEof = true ∨ (s.input = [] ∧ s.inputEnded = true) := by
  unfold State.inAnswer
  cases s.inEof <;> cases s.input <;> cases s.inputEnded <;> simp

theorem inAnswer_pending_iff (s : State) :
    s.inAnswer = .pending ↔ s.inEof = false ∧ s.input = [] ∧ s.inputEnded = false := by
  unfold State.inAnswer
  cases s.inEof <;> cases s.input <;> cases s.inputEnded <;> simp

/-! ## Activity after a pool operation -/

theorem active_alloc (m : Memory) (id n j : Word) :
    Memory.active (Memory.alloc m id n) j = (decide (j = id) || Memory.active m j) := by
  simp only [Memory.active, Memory.segment?_alloc]
  split_ifs with h <;> simp [h]

theorem active_free (m : Memory) (id j : Word) :
    Memory.active (Memory.free m id) j = (!decide (j = id) && Memory.active m j) := by
  simp only [Memory.active, Memory.segment?_free]
  split_ifs with h <;> simp [h]

theorem active_write (m : Memory) (id off v j : Word) :
    Memory.active (Memory.write m id off v) j = Memory.active m j := by
  rw [Memory.active_eq_length?, Memory.length?_write, ← Memory.active_eq_length?]

theorem active_replaceZero (m : Memory) (src j : Word) (h : Memory.active m src = true) :
    Memory.active (Memory.replaceZero m src) j = (decide (j = 0) || Memory.active m j) := by
  obtain ⟨g, hg⟩ := (Memory.active_iff m src).1 h
  simp only [Memory.active, Memory.segment?_replaceZero m src j g hg]
  by_cases hj : j = 0
  · simp [hj]
  · rw [if_neg hj, decide_eq_false hj, Bool.false_or]

/-! ## Fetch and step -/

/-- A fetch gives a word exactly where pc is below the length of segment 0 (R91, R92). -/
theorem fetch_isSome (s : State) : s.fetch.isSome = true ↔ InBounds s 0 s.pc := by
  simp only [State.fetch, Memory.read?_isSome, InBounds, BitVec.lt_def]

theorem step_running (s : State) (hs : s.status = .running) :
    step s = match s.fetch with
      | none => .next (s.raiseFatal .pcOutOfBounds 0 0 s.pc)
      | some w => exec (decode w) s := by
  unfold step
  rw [hs]
  all_goals cases s.fetch <;> rfl

/-- Everything a step that answers next can be: the pc check failed, or the fetched instruction ran. -/
theorem step_next_cases (s t : State) (h : step s = .next t) :
    s.status = .running ∧
      ((s.fetch = none ∧ t = s.raiseFatal .pcOutOfBounds 0 0 s.pc) ∨
        ∃ w, s.fetch = some w ∧ exec (decode w) s = .next t) := by
  unfold step at h
  split at h
  · cases h
  · cases h
  · next hs =>
    refine ⟨hs, ?_⟩
    split at h
    · next hf => cases h; exact .inl ⟨hf, rfl⟩
    · next w hf => exact .inr ⟨w, hf, h⟩

/-- The word placed is the word read, at every offset a segment can have. -/
theorem read?_place (m : Memory) (off w : Word) (h : off ≠ 0xFFFFFFFF) :
    Memory.read? (Memory.place m off w) 0 off = some w := by
  unfold Memory.place
  generalize (Memory.segment? m 0).getD ⟨0, []⟩ = g
  have hoff : off.toNat < 0xFFFFFFFF := by
    have hlt := off.isLt
    have hne : off.toNat ≠ 0xFFFFFFFF := fun e => h (BitVec.eq_of_toNat_eq e)
    omega
  have hlen : off < if off < g.len then g.len else off + 1 := by
    split_ifs with hl
    · exact hl
    · rw [BitVec.lt_def, BitVec.toNat_add]
      change off.toNat < (off.toNat + 1) % 2 ^ 32
      omega
  have hseg := sparseLookup_insert_word 0 0
    (Segment.write ⟨if off < g.len then g.len else off + 1, g.cells⟩ off w) m
  rw [if_pos rfl] at hseg
  unfold Memory.read? Memory.segment?
  erw [hseg]
  simp only [Segment.write_len, if_pos hlen, Segment.read_write, if_pos]

/-- `placeWord` puts the word where the next fetch reads it, and the run is `Running`. -/
theorem fetch_placeWord (s : State) (w : Word) :
    (s.placeWord w).status = .running ∧ (s.placeWord w).fetch = some w := by
  refine ⟨rfl, read?_place s.mem (placePc s.pc) w ?_⟩
  unfold placePc
  split_ifs with h
  · decide
  · exact h

/-- The next step of `withFetchWord` runs the instruction the word decodes to. -/
theorem step_withFetchWord (s : State) (nbits w : Nat) :
    step (s.withFetchWord nbits w) =
      exec (decode (BitVec.ofNat 32 (w % 2 ^ nbits))) (s.withFetchWord nbits w) := by
  have h := fetch_placeWord s (BitVec.ofNat 32 (w % 2 ^ nbits))
  rw [State.withFetchWord, step_running _ h.1, h.2]

/-! ## Several instructions -/

@[simp] theorem execAll_nil (s : State) : execAll [] s = some s := rfl

/-- A list of instructions has a state after it exactly where its head has a next state and the rest has one
from there. -/
theorem execAll_cons_eq_some_iff (i : Instr) (rest : List Instr) (s u : State) :
    execAll (i :: rest) s = some u ↔ ∃ t, exec i s = .next t ∧ execAll rest t = some u := by
  rw [execAll]
  cases exec i s <;> simp

/-- What every instruction of a kind keeps, a list of such instructions keeps. -/
theorem execAll_keeps {P : State → Prop} {kind : Instr → Prop}
    (hstep : ∀ i s t, kind i → P s → exec i s = .next t → P t)
    (l : List Instr) (s u : State) (hl : ∀ i ∈ l, kind i) (hs : P s) (h : execAll l s = some u) : P u := by
  induction l generalizing s with
  | nil => cases h; exact hs
  | cons i rest ih =>
    obtain ⟨t, hi, hr⟩ := (execAll_cons_eq_some_iff i rest s u).1 h
    exact ih t (fun j hj => hl j (List.mem_cons_of_mem i hj))
      (hstep i s t (hl i List.mem_cons_self) hs hi) hr

/-! ## Status outputs -/

theorem statusOut_running (s : State) : s.statusOut = 0 ↔ s.status = .running := by
  unfold State.statusOut
  split <;> simp_all

theorem statusOut_halted (s : State) : s.statusOut = 1 ↔ s.status = .halted := by
  unfold State.statusOut
  split <;> simp_all

end Sys2Proof.Machine
end

