-- ==== Sys2Proof/Laws/PerInstr.lean ====
section
/-! SUPPORT. Statements about every instruction as syntax, one lemma per constructor. -/

namespace Sys2Proof.Laws

/-- The opcode field of the canonical word is the instruction's opcode (spec/30_encoding.md R71, R84). -/
def EncodeOpcode.Statement (i : Instr) : Prop := opcodeField (encode i) = i.opcode

theorem EncodeOpcode.cmov (a b c : Reg) : EncodeOpcode.Statement (.cmov a b c) :=
  opcodeField_encodeStandard _ _ _ _
theorem EncodeOpcode.aidx (a b c : Reg) : EncodeOpcode.Statement (.aidx a b c) :=
  opcodeField_encodeStandard _ _ _ _
theorem EncodeOpcode.amend (a b c : Reg) : EncodeOpcode.Statement (.amend a b c) :=
  opcodeField_encodeStandard _ _ _ _
theorem EncodeOpcode.add (a b c : Reg) : EncodeOpcode.Statement (.add a b c) :=
  opcodeField_encodeStandard _ _ _ _
theorem EncodeOpcode.mul (a b c : Reg) : EncodeOpcode.Statement (.mul a b c) :=
  opcodeField_encodeStandard _ _ _ _
theorem EncodeOpcode.div (a b c : Reg) : EncodeOpcode.Statement (.div a b c) :=
  opcodeField_encodeStandard _ _ _ _
theorem EncodeOpcode.nand (a b c : Reg) : EncodeOpcode.Statement (.nand a b c) :=
  opcodeField_encodeStandard _ _ _ _
theorem EncodeOpcode.halt : EncodeOpcode.Statement .halt := opcodeField_encodeStandard _ _ _ _
theorem EncodeOpcode.alloc (b c : Reg) : EncodeOpcode.Statement (.alloc b c) :=
  opcodeField_encodeStandard _ _ _ _
theorem EncodeOpcode.free (c : Reg) : EncodeOpcode.Statement (.free c) :=
  opcodeField_encodeStandard _ _ _ _
theorem EncodeOpcode.out (c : Reg) : EncodeOpcode.Statement (.out c) :=
  opcodeField_encodeStandard _ _ _ _
theorem EncodeOpcode.inp (c : Reg) : EncodeOpcode.Statement (.inp c) :=
  opcodeField_encodeStandard _ _ _ _
theorem EncodeOpcode.loadp (b c : Reg) : EncodeOpcode.Statement (.loadp b c) :=
  opcodeField_encodeStandard _ _ _ _
theorem EncodeOpcode.ldi (a : Reg) (value : BitVec 25) : EncodeOpcode.Statement (.ldi a value) :=
  opcodeField_encodeSpecial _ _
theorem EncodeOpcode.undef14 : EncodeOpcode.Statement .undef14 := opcodeField_encodeStandard _ _ _ _
theorem EncodeOpcode.undef15 : EncodeOpcode.Statement .undef15 := opcodeField_encodeStandard _ _ _ _

end Sys2Proof.Laws
end

