-- ==== Sys2Proof/Tests/Slice0.lean ====
section
/-! SUPPORT. Tests of the model, with the values of spec/95_test_vectors.md or worked out by hand from the
numbered rules, and for every statement with hypotheses (Certificates/Slice0/Obligations.lean) a concrete
state and operands that meet them: theorem `witness_<name of the statement>`. -/

namespace Sys2Proof.Tests

open Sys2Proof.Machine

/-! ## Helpers -/

/-- The pool of 95_test_vectors.md section 2.3: segment 0 is the word and HALT, id 1 is active with
`[10, 20, 30]`, id 3 was freed, id 2 never allocated. -/
def vec (w : Word) (regs : RegFile) : State :=
  { State.reset with
    regs := regs
    mem := [(0, segmentOf [w, 0x70000000]), (1, segmentOf [10, 20, 30])]
    recycling := [3] }

/-- No register is set. -/
def zeros : RegFile := ⟨0, 0, 0, 0, 0, 0, 0, 0⟩

/-- The next state, if there is one. -/
def next? (o : Host.Outcome State Fault Refusal) : Option State :=
  match o with
  | .next t => some t
  | _ => none

/-- The next state; the reset state where there is none. -/
def nextOf (o : Host.Outcome State Fault Refusal) : State := (next? o).getD State.reset

/-- The stop, if there is one. -/
def stop? (o : Host.Outcome State Fault Refusal) : Option Fault :=
  match o with
  | .fault f => some f
  | _ => none

/-- The state after one step. -/
def run1 (s : State) : State := nextOf (step s)

/-! ## Well-formedness -/

theorem test_wellFormed_refuses_opcode14 : Instr.undef14.wellFormed = false := rfl
theorem test_wellFormed_refuses_opcode15 : Instr.undef15.wellFormed = false := rfl
theorem test_wellFormed_accepts_halt : Instr.halt.wellFormed = true := rfl
theorem test_launch_refuses_length_zero : launchLengthOk 0 = false := by decide
theorem test_launch_refuses_length_too_long : launchLengthOk (2 ^ 32) = false := by decide
theorem test_launch_accepts_bounds :
    launchLengthOk 1 = true ∧ launchLengthOk (2 ^ 32 - 1) = true := by decide
theorem test_launch_of_no_words : State.launch [] [] true = none := rfl

/-! ## Decoding: the words of 95_test_vectors.md section 2.1 -/

theorem test_decode_cmov : decode 0x00000053 = .cmov .x1 .x2 .x3 := by decide
theorem test_decode_aidx : decode 0x10000154 = .aidx .x5 .x2 .x4 := by decide
theorem test_decode_amend : decode 0x200000A3 = .amend .x2 .x4 .x3 := by decide
theorem test_decode_add : decode 0x300000CA = .add .x3 .x1 .x2 := by decide
theorem test_decode_add_ignores_reserved : decode 0x3FFFFEC9 = .add .x3 .x1 .x1 := by decide
theorem test_decode_mul : decode 0x400001B7 = .mul .x6 .x6 .x7 := by decide
theorem test_decode_div : decode 0x500000CA = .div .x3 .x1 .x2 := by decide
theorem test_decode_nand : decode 0x600001C0 = .nand .x7 .x0 .x0 := by decide
theorem test_decode_halt : decode 0x70000000 = .halt ∧ decode 0x7ABCDEF5 = .halt := by decide
theorem test_decode_alloc :
    decode 0x80000011 = .alloc .x2 .x1 ∧ decode 0x800001D1 = .alloc .x2 .x1 := by decide
theorem test_decode_free : decode 0x90000002 = .free .x2 := by decide
theorem test_decode_out : decode 0xA0000002 = .out .x2 ∧ decode 0xA00001FA = .out .x2 := by decide
theorem test_decode_inp : decode 0xB0000001 = .inp .x1 := by decide
theorem test_decode_loadp : decode 0xC0000008 = .loadp .x1 .x0 := by decide
theorem test_decode_ldi :
    decode 0xD4000041 = .ldi .x2 0x41 ∧ decode 0xDFFFFFFF = .ldi .x7 0x1FFFFFF := by decide
theorem test_decode_undef14 : decode 0xE0000000 = .undef14 ∧ decode 0xEFFFFFFF = .undef14 := by decide
theorem test_decode_undef15 : decode 0xF0000000 = .undef15 ∧ decode 0xFFFFFFFF = .undef15 := by decide
theorem test_encode_canonical :
    encode (.add .x3 .x1 .x2) = 0x300000CA ∧ encode (.alloc .x2 .x1) = 0x80000011 ∧
    encode (.ldi .x2 0x41) = 0xD4000041 ∧ encode .halt = 0x70000000 := by decide
theorem test_decodeTableWord : decodeTableWord 32 0x300000CA = some (.add .x3 .x1 .x2) := by decide
/-- Big-endian, four bytes a word (20_memory.md R52). -/
theorem test_decodeBytes_order :
    (decodeBytes [0xD4, 0x00, 0x00, 0x41]).toOption = some (.ldi .x2 0x41) := by decide
theorem test_decodeBytes_refuses_three : (decodeBytes [0xD4, 0x00, 0x00]).toOption = none := by decide
theorem test_progOfFile : progOfFile [0x70, 0, 0, 0, 0, 0, 0, 1] = some [0x70000000, 1] ∧
    progOfFile [0x70, 0, 0, 0, 1] = none := by decide

/-! ## One step (95_test_vectors.md sections 2.2 to 2.4) -/

theorem test_cmov_moves_on_sign_bit :
    (run1 (vec 0x00000053 ⟨0, 7, 9, 0x80000000, 0, 0, 0, 0⟩)).reg .x1 = 9 := by decide
theorem test_cmov_keeps_on_zero :
    (run1 (vec 0x00000053 ⟨0, 7, 9, 0, 0, 0, 0, 0⟩)).reg .x1 = 7 ∧
    (run1 (vec 0x00000053 ⟨0, 7, 9, 0, 0, 0, 0, 0⟩)).pc = 1 := by decide
theorem test_add_wraps : (run1 (vec 0x300000CA ⟨0, 5, 0xFFFFFFFF, 0, 0, 0, 0, 0⟩)).reg .x3 = 4 := by decide
theorem test_add_onto_source :
    (run1 (vec 0x30000049 ⟨0, 0x40000001, 0, 0, 0, 0, 0, 0⟩)).reg .x1 = 0x80000002 := by decide
theorem test_mul_low_half :
    (run1 (vec 0x400000CA ⟨0, 0xFFFFFFFF, 2, 0, 0, 0, 0, 0⟩)).reg .x3 = 0xFFFFFFFE := by decide
theorem test_mul_shifts :
    (run1 (vec 0x400001B7 ⟨0, 0, 0, 0, 0, 0, 0xD4, 0x1000000⟩)).reg .x6 = 0xD4000000 := by decide
theorem test_div_is_unsigned :
    (run1 (vec 0x500000CA ⟨0, 0xFFFFFFFF, 2, 0, 0, 0, 0, 0⟩)).reg .x3 = 0x7FFFFFFF := by decide
theorem test_div_by_zero_fails :
    (run1 (vec 0x500000CA ⟨0, 5, 0, 0x77, 0, 0, 0, 0⟩)).status = .failed .divideByZero ⟨5, 0, 0, 0⟩ ∧
    (run1 (vec 0x500000CA ⟨0, 5, 0, 0x77, 0, 0, 0, 0⟩)).reg .x3 = 0x77 := by decide
theorem test_nand_bits :
    (run1 (vec 0x600000CA ⟨0, 0xF0F0F0F0, 0xFF00FF00, 0, 0, 0, 0, 0⟩)).reg .x3 = 0x0FFF0FFF := by decide
theorem test_nand_complements :
    (run1 (vec 0x600000C9 ⟨0, 0x0000FFFF, 0, 0, 0, 0, 0, 0⟩)).reg .x3 = 0xFFFF0000 := by decide
theorem test_ldi_zero_extends : (run1 (vec 0xDFFFFFFF zeros)).reg .x7 = 0x01FFFFFF := by decide
theorem test_ldi_low_bits_are_no_fields :
    (run1 (vec 0xD20001CA ⟨1, 2, 3, 4, 5, 6, 7, 8⟩)).regs = ⟨1, 0x1CA, 3, 4, 5, 6, 7, 8⟩ := by decide
theorem test_aidx_onto_id_register :
    (run1 (vec 0x10000094 ⟨0, 0, 1, 0, 1, 0, 0, 0⟩)).reg .x2 = 20 := by decide
theorem test_aidx_activity_before_bounds :
    (run1 (vec 0x10000154 ⟨0, 0, 3, 0, 99, 0, 0, 0⟩)).status =
      .failed .inactiveSegment ⟨1, 0, 3, 99⟩ := by decide
theorem test_amend_one_word :
    Memory.segment? (run1 (vec 0x200000A3 ⟨0, 0, 1, 0x61, 2, 0, 0, 0⟩)).mem 1 =
      some (segmentOf [10, 20, 0x61]) := by decide
theorem test_amend_past_end :
    (run1 (vec 0x200000A3 ⟨0, 0, 1, 0x61, 3, 0, 0, 0⟩)).status =
      .failed .offsetOutOfBounds ⟨2, 0, 1, 3⟩ := by decide
/-- The reference allocator with free stack `[3]` gives 3. -/
theorem test_alloc_reference :
    (run1 (vec 0x80000011 ⟨0, 4, 0, 0, 0, 0, 0, 0⟩).withReferenceAnswers).reg .x2 = 3 ∧
    Memory.segment? (run1 (vec 0x80000011 ⟨0, 4, 0, 0, 0, 0, 0, 0⟩).withReferenceAnswers).mem 3 =
      some (segmentOf [0, 0, 0, 0]) := by decide
theorem test_alloc_fails :
    (run1 { vec 0x80000011 ⟨0, 4, 0, 0, 0, 0, 0, 0⟩ with allocAnswers := [none] }).status =
      .failed .hostAllocFail ⟨8, 0, 0, 4⟩ := by decide
theorem test_free_deactivates :
    Memory.active (run1 (vec 0x90000002 ⟨0, 0, 1, 0, 0, 0, 0, 0⟩)).mem 1 = false ∧
    (run1 (vec 0x90000002 ⟨0, 0, 1, 0, 0, 0, 0, 0⟩)).reg .x2 = 1 := by decide
theorem test_free_twice_fails :
    (run1 (vec 0x90000002 ⟨0, 0, 3, 0, 0, 0, 0, 0⟩)).status =
      .failed .freeInactive ⟨9, 0, 3, 0⟩ := by decide
theorem test_out_largest_byte :
    (run1 { vec 0xA0000001 ⟨0, 255, 0, 0, 0, 0, 0, 0⟩ with writeFails := [false] }).outLog = [0xFF] := by
  decide
/-- The range is checked before the write is tried (R141). -/
theorem test_out_range_first :
    (run1 { vec 0xA0000001 ⟨0, 256, 0, 0, 0, 0, 0, 0⟩ with writeFails := [true] }).status =
      .failed .outputRange ⟨10, 0, 0, 256⟩ := by decide
theorem test_in_zero_extends :
    (run1 { vec 0xB0000002 zeros with input := [0xFF, 1] }).reg .x2 = 0x000000FF ∧
    (run1 { vec 0xB0000002 zeros with input := [0xFF, 1] }).input = [1] := by decide
theorem test_in_end_of_stream :
    (run1 (vec 0xB0000003 zeros)).reg .x3 = 0xFFFFFFFF ∧ (run1 (vec 0xB0000003 zeros)).inEof = true := by
  decide
theorem test_loadp_copies_and_jumps :
    Memory.segment? (run1 { vec 0xC0000008 ⟨2, 1, 0, 0, 0, 0, 0, 0⟩ with copyFails := [false] }).mem 0 =
      some (segmentOf [10, 20, 30]) ∧
    (run1 { vec 0xC0000008 ⟨2, 1, 0, 0, 0, 0, 0, 0⟩ with copyFails := [false] }).pc = 2 := by decide
theorem test_loadp_inactive :
    (run1 (vec 0xC0000008 ⟨0, 9, 0, 0, 0, 0, 0, 0⟩)).status =
      .failed .inactiveSegment ⟨12, 0, 9, 0⟩ := by decide
theorem test_halt_ends_run :
    (run1 (vec 0x7ABCDEF5 zeros)).status = .halted ∧ (run1 (vec 0x7ABCDEF5 zeros)).pc = 0 := by decide
theorem test_undef14_fails :
    (run1 (vec 0xE0000000 zeros)).status = .failed .undefinedOpcode ⟨14, 0, 0, 0⟩ := by decide
theorem test_undef15_fails :
    (run1 (vec 0xFFFFFFFF zeros)).status = .failed .undefinedOpcode ⟨15, 0, 0, 0⟩ := by decide
theorem test_run_off_the_end :
    (run1 { vec 0 zeros with pc := 7 }).status = .failed .pcOutOfBounds ⟨0, 7, 0, 7⟩ := by decide
/-- The interface's two definitions agree with the machine: `LDI x2, 0x41` placed after reset runs. -/
theorem test_withFetchWord_after_reset :
    (run1 (State.reset.withFetchWord 32 0xD4000041)).reg .x2 = 0x41 := by decide

/-! ## Witnesses: the hypotheses of the statements, met together -/

/-- Opcode and the three fields of a standard-format word. -/
def Fields (w : Word) (op : Nat) (a b c : Reg) : Prop :=
  w.toNat / 2 ^ 28 = op ∧ FieldNames w 6 a ∧ FieldNames w 3 b ∧ FieldNames w 0 c

theorem witness_CmovMovesWhenConditionNonzero :
    Fields 0x00000000 0 .x0 .x0 .x0 ∧ Fields 0x0FFFFFFF 0 .x7 .x7 .x7 :=
  ⟨⟨rfl, rfl, rfl, rfl⟩, rfl, rfl, rfl, rfl⟩

theorem witness_AddIsSumModuloWord :
    Fields 0x30000000 3 .x0 .x0 .x0 ∧ Fields 0x3FFFFFFF 3 .x7 .x7 .x7 :=
  ⟨⟨rfl, rfl, rfl, rfl⟩, rfl, rfl, rfl, rfl⟩

theorem witness_MulIsProductModuloWord :
    Fields 0x40000000 4 .x0 .x0 .x0 ∧ Fields 0x4FFFFFFF 4 .x7 .x7 .x7 :=
  ⟨⟨rfl, rfl, rfl, rfl⟩, rfl, rfl, rfl, rfl⟩

/-- The two clauses: divisor 1, the smallest other than 0, and divisor 0. -/
theorem witness_DivIsUnsignedFloorOrFails :
    Fields 0x50000000 5 .x0 .x0 .x0 ∧ Fields 0x5FFFFFFF 5 .x7 .x7 .x7 ∧
    (vec 0 ⟨0, 9, 1, 0, 0, 0, 0, 0⟩).reg .x2 ≠ 0 ∧ (vec 0 ⟨0, 9, 0, 0, 0, 0, 0, 0⟩).reg .x2 = 0 :=
  ⟨⟨rfl, rfl, rfl, rfl⟩, ⟨rfl, rfl, rfl, rfl⟩, by decide, by decide⟩

theorem witness_NandComplementsEveryBit :
    Fields 0x60000000 6 .x0 .x0 .x0 ∧ Fields 0x6FFFFFFF 6 .x7 .x7 .x7 :=
  ⟨⟨rfl, rfl, rfl, rfl⟩, rfl, rfl, rfl, rfl⟩

theorem witness_LdiZeroExtendsValue :
    (0xDFFFFFFF : Word).toNat / 2 ^ 28 = 13 ∧
    (0xDFFFFFFF : Word).toNat / 2 ^ 25 % 8 = regNumber .x7 ∧
    (0xDFFFFFFF : Word).toNat % 2 ^ 25 = (0x1FFFFFF : BitVec 25).toNat := by decide

/-- The three clauses, for a segment of 3 words: offsets 0, 2 and 3, 2^32 - 1, and an inactive id. -/
theorem witness_AidxLoadsWordOrFails :
    Fields 0x10000000 1 .x0 .x0 .x0 ∧ Fields 0x1FFFFFFF 1 .x7 .x7 .x7 ∧
    Memory.length? (vec 0 ⟨0, 0, 1, 0, 2, 0, 0, 0⟩).mem 1 = some 3 ∧
    (vec 0 ⟨0, 0, 1, 0, 0, 0, 0, 0⟩).reg .x2 = 1 ∧
    ((vec 0 ⟨0, 0, 1, 0, 0, 0, 0, 0⟩).reg .x4).toNat < (3 : Word).toNat ∧
    ((vec 0 ⟨0, 0, 1, 0, 2, 0, 0, 0⟩).reg .x4).toNat < (3 : Word).toNat ∧
    (3 : Word).toNat ≤ ((vec 0 ⟨0, 0, 1, 0, 3, 0, 0, 0⟩).reg .x4).toNat ∧
    (3 : Word).toNat ≤ ((vec 0 ⟨0, 0, 1, 0, 0xFFFFFFFF, 0, 0, 0⟩).reg .x4).toNat ∧
    Memory.active (vec 0 ⟨0, 0, 2, 0, 0, 0, 0, 0⟩).mem ((vec 0 ⟨0, 0, 2, 0, 0, 0, 0, 0⟩).reg .x2) = false :=
  ⟨⟨rfl, rfl, rfl, rfl⟩, ⟨rfl, rfl, rfl, rfl⟩, by decide, by decide, by decide, by decide, by decide,
    by decide, by decide⟩

theorem witness_AmendStoresWordOrFails :
    Fields 0x20000000 2 .x0 .x0 .x0 ∧ Fields 0x2FFFFFFF 2 .x7 .x7 .x7 ∧
    Memory.length? (vec 0 ⟨0, 0, 1, 5, 2, 0, 0, 0⟩).mem ((vec 0 ⟨0, 0, 1, 5, 2, 0, 0, 0⟩).reg .x2) = some 3 ∧
    ((vec 0 ⟨0, 0, 1, 5, 2, 0, 0, 0⟩).reg .x4).toNat < (3 : Word).toNat ∧
    (3 : Word).toNat ≤ ((vec 0 ⟨0, 0, 1, 5, 3, 0, 0, 0⟩).reg .x4).toNat ∧
    Memory.active (vec 0 ⟨0, 0, 2, 5, 0, 0, 0, 0⟩).mem ((vec 0 ⟨0, 0, 2, 5, 0, 0, 0, 0⟩).reg .x2) = false :=
  ⟨⟨rfl, rfl, rfl, rfl⟩, ⟨rfl, rfl, rfl, rfl⟩, by decide, by decide, by decide, by decide⟩

/-- Granted (the least and the greatest id) and not granted: refused by the pool, or an answer R45 forbids, id 0
or the active id 1. -/
theorem witness_AllocGivesFreshZeroSegment :
    Fields 0x80000000 8 .x0 .x0 .x0 ∧ Fields 0x8FFFFFFF 8 .x7 .x7 .x7 ∧
    State.allocGranted { State.reset with allocAnswers := [some 1] } = some 1 ∧
    State.allocGranted { State.reset with allocAnswers := [some 0xFFFFFFFF] } = some 0xFFFFFFFF ∧
    State.allocGranted { State.reset with allocAnswers := [none] } = none ∧
    State.allocGranted { vec 0 zeros with allocAnswers := [some 0] } = none ∧
    State.allocGranted { vec 0 zeros with allocAnswers := [some 1] } = none :=
  ⟨⟨rfl, rfl, rfl, rfl⟩, ⟨rfl, rfl, rfl, rfl⟩, by decide, by decide, by decide, by decide, by decide⟩

/-- The three clauses: ids 1 (active), 0, 2 (inactive). -/
theorem witness_FreeDeactivatesOrFails :
    Fields 0x90000000 9 .x0 .x0 .x0 ∧ Fields 0x9FFFFFFF 9 .x7 .x7 .x7 ∧
    (vec 0 ⟨0, 0, 1, 0, 0, 0, 0, 0⟩).reg .x2 ≠ 0 ∧
    Memory.active (vec 0 ⟨0, 0, 1, 0, 0, 0, 0, 0⟩).mem ((vec 0 ⟨0, 0, 1, 0, 0, 0, 0, 0⟩).reg .x2) = true ∧
    (vec 0 zeros).reg .x2 = 0 ∧
    (vec 0 ⟨0, 0, 2, 0, 0, 0, 0, 0⟩).reg .x2 ≠ 0 ∧
    Memory.active (vec 0 ⟨0, 0, 2, 0, 0, 0, 0, 0⟩).mem ((vec 0 ⟨0, 0, 2, 0, 0, 0, 0, 0⟩).reg .x2) = false :=
  ⟨⟨rfl, rfl, rfl, rfl⟩, ⟨rfl, rfl, rfl, rfl⟩, by decide, by decide, by decide, by decide, by decide⟩

/-- Id 1 is in `x2` and, a second copy, in `x5`. -/
def staleState : State := vec 0x90000002 ⟨0, 0, 1, 0, 0, 1, 0, 0⟩

theorem witness_StaleIdFailsAfterFree :
    exec (.free .x2) staleState = .next (nextOf (exec (.free .x2) staleState)) ∧
    (nextOf (exec (.free .x2) staleState)).status = .running ∧
    (nextOf (exec (.free .x2) staleState)).reg .x5 = staleState.reg .x2 := ⟨rfl, by decide, by decide⟩

/-- The pool will answer 3 and then 2. -/
def twoAnswers : State := { vec 0 ⟨0, 1, 0, 0, 0, 0, 0, 0⟩ with allocAnswers := [some 3, some 2] }

/-- The state after the first of the two. -/
def afterFirst : State := nextOf (exec (.alloc .x2 .x1) twoAnswers)

/-- Between the two: an LDI, a store to the new segment of one word, and a jump. -/
def betweenThem : List Instr := [.ldi .x4 7, .amend .x2 .x0 .x4, .loadp .x0 .x0]

/-- The state after those. -/
def afterBetween : State := (execAll betweenThem afterFirst).getD State.reset

theorem witness_TwoAllocationsDoNotAlias :
    twoAnswers.allocGranted = some 3 ∧ exec (.alloc .x2 .x1) twoAnswers = .next afterFirst ∧
    (∀ r : Reg, .free r ∉ betweenThem) ∧ execAll betweenThem afterFirst = some afterBetween ∧
    Memory.read? afterBetween.mem 3 0 = some 7 ∧
    afterBetween.allocGranted = some 2 ∧
    exec (.alloc .x3 .x1) afterBetween = .next (nextOf (exec (.alloc .x3 .x1) afterBetween)) :=
  ⟨by decide, rfl, fun r => by cases r <;> decide, rfl, by decide, by decide, rfl⟩

theorem witness_HaltEndsRunAndHoldsState :
    (0x70000000 : Word).toNat / 2 ^ 28 = 7 ∧ (0x7FFFFFFF : Word).toNat / 2 ^ 28 = 7 := by decide

/-- The three clauses at 255 and 256. -/
theorem witness_OutEmitsByteOrFails :
    Fields 0xA0000000 10 .x0 .x0 .x0 ∧ Fields 0xAFFFFFFF 10 .x7 .x7 .x7 ∧
    ((vec 0 ⟨0, 255, 0, 0, 0, 0, 0, 0⟩).reg .x1).toNat ≤ 255 ∧
    State.writeFailsNow { vec 0 ⟨0, 255, 0, 0, 0, 0, 0, 0⟩ with writeFails := [false] } = false ∧
    State.writeFailsNow { vec 0 ⟨0, 255, 0, 0, 0, 0, 0, 0⟩ with writeFails := [true] } = true ∧
    255 < ((vec 0 ⟨0, 256, 0, 0, 0, 0, 0, 0⟩).reg .x1).toNat :=
  ⟨⟨rfl, rfl, rfl, rfl⟩, ⟨rfl, rfl, rfl, rfl⟩, by decide, by decide, by decide, by decide⟩

/-- One byte, 0xFF, and no word yet on whether more follows. -/
def oneByte : State := { State.reset with input := [0xFF], inputEnded := false }

/-- An IN has met the end of the stream. -/
def metEof : State := { State.reset with inEof := true }

/-- The host has answered neither a byte nor the end. -/
def waiting : State := { State.reset with inputEnded := false }

/-- The clauses: a byte; the end met before; the end met now; no answer. -/
theorem witness_InGivesByteOrEndOfStream :
    Fields 0xB0000000 11 .x0 .x0 .x0 ∧ Fields 0xBFFFFFFF 11 .x7 .x7 .x7 ∧
    (oneByte.inEof = false ∧ oneByte.input = [0xFF]) ∧
    metEof.inEof = true ∧
    (State.reset.input = [] ∧ State.reset.inputEnded = true) ∧
    waiting.inEof = false ∧ waiting.input = [] ∧ waiting.inputEnded = false :=
  ⟨⟨rfl, rfl, rfl, rfl⟩, ⟨rfl, rfl, rfl, rfl⟩, ⟨rfl, rfl⟩, rfl, ⟨rfl, rfl⟩, rfl, rfl, rfl⟩

theorem witness_InWaitsUntilHostAnswers :
    waiting.inEof = false ∧ waiting.input = [] ∧ waiting.inputEnded = false ∧
    stop? (exec (.inp .x1) waiting) = some .awaitingInput := ⟨rfl, rfl, rfl, by decide⟩

theorem witness_EndOfStreamIsSticky :
    metEof.inEof = true ∧ exec (.ldi .x1 5) metEof = .next (nextOf (exec (.ldi .x1 5) metEof)) := ⟨rfl, rfl⟩

/-- `x1` = 1 names the source segment, `x2` = 1 is an offset, `x3` a value. -/
def loadState : State := { vec 0xC0000008 ⟨0, 1, 1, 99, 0, 0, 0, 0⟩ with copyFails := [false] }

/-- The clauses: no source, a source whose copy succeeds or fails, an inactive source. -/
theorem witness_LoadpReplacesProgramAndJumps :
    Fields 0xC0000000 12 .x0 .x0 .x0 ∧ Fields 0xCFFFFFFF 12 .x7 .x7 .x7 ∧
    (vec 0 zeros).reg .x1 = 0 ∧
    (loadState.reg .x1 ≠ 0 ∧ Memory.active loadState.mem (loadState.reg .x1) = true) ∧
    loadState.copyFailsNow = false ∧
    State.copyFailsNow { loadState with copyFails := [true] } = true ∧
    (vec 0 ⟨0, 2, 0, 0, 0, 0, 0, 0⟩).reg .x1 ≠ 0 ∧
    Memory.active (vec 0 ⟨0, 2, 0, 0, 0, 0, 0, 0⟩).mem ((vec 0 ⟨0, 2, 0, 0, 0, 0, 0, 0⟩).reg .x1) = false :=
  ⟨⟨rfl, rfl, rfl, rfl⟩, ⟨rfl, rfl, rfl, rfl⟩, by decide, by decide, by decide, by decide, by decide,
    by decide⟩

/-- The state after the Load Program of `loadState`. -/
def loaded : State := nextOf (exec (.loadp .x1 .x0) loadState)

/-- A store to the source (through `x1`) and one to segment 0 (through `x0`). -/
theorem witness_LoadedProgramIsIndependentCopy :
    loadState.reg .x1 ≠ 0 ∧ exec (.loadp .x1 .x0) loadState = .next loaded ∧ loaded.status = .running ∧
    (exec (.amend .x1 .x2 .x3) loaded = .next (nextOf (exec (.amend .x1 .x2 .x3) loaded)) ∧
      loaded.reg .x1 = loadState.reg .x1) ∧
    exec (.amend .x0 .x2 .x3) loaded = .next (nextOf (exec (.amend .x0 .x2 .x3) loaded)) ∧
    loaded.reg .x0 = 0 := ⟨by decide, rfl, by decide, ⟨rfl, by decide⟩, rfl, by decide⟩

theorem witness_UndefinedOpcodesFail :
    (0xE0000000 : Word).toNat / 2 ^ 28 = 14 ∧ (0xEFFFFFFF : Word).toNat / 2 ^ 28 = 14 ∧
    (0xF0000000 : Word).toNat / 2 ^ 28 = 15 ∧ (0xFFFFFFFF : Word).toNat / 2 ^ 28 = 15 := by decide

theorem witness_StepRunsDecodedInstruction :
    (vec 0x300000CA zeros).status = .running ∧
    Memory.read? (vec 0x300000CA zeros).mem 0 (vec 0x300000CA zeros).pc = some 0x300000CA ∧
    decode 0x300000CA = .add .x3 .x1 .x2 := by decide

/-- Segment 0 has 2 words: pc 2 and 2^32 - 1 are out, pc 1 is in; pc 0 is out of an empty segment 0. -/
theorem witness_PcCheckedBeforeFetch :
    (vec 0 zeros).status = .running ∧ Memory.length? (vec 0 zeros).mem 0 = some 2 ∧
    (2 : Word).toNat ≤ (State.pc { vec 0 zeros with pc := 2 }).toNat ∧
    (2 : Word).toNat ≤ (State.pc { vec 0 zeros with pc := 0xFFFFFFFF }).toNat ∧
    (State.pc { vec 0 zeros with pc := 1 }).toNat < (2 : Word).toNat ∧
    Memory.length? State.reset.mem 0 = some 0 ∧ (0 : Word).toNat ≤ State.reset.pc.toNat := by decide

theorem witness_EndedRunTakesNoStep :
    (run1 (vec 0x70000000 zeros)).status = .halted ∧
    (run1 (vec 0xE0000000 zeros)).status = .failed .undefinedOpcode ⟨14, 0, 0, 0⟩ := by decide

/-- Both outcomes occur: a next state, and a wait for input. -/
theorem witness_RunningStepAnswersUnlessInputAwaited :
    (vec 0 zeros).status = .running ∧ (next? (step (vec 0 zeros))).isSome = true ∧
    State.status { vec 0xB0000001 zeros with inputEnded := false } = .running ∧
    stop? (step { vec 0xB0000001 zeros with inputEnded := false }) = some .awaitingInput := by decide

/-- Both sides of the equivalence occur. -/
theorem witness_HaltedExactlyByOpcodeSeven :
    step (vec 0x70000000 zeros) = .next (run1 (vec 0x70000000 zeros)) ∧
    (run1 (vec 0x70000000 zeros)).status = .halted ∧
    step (vec 0xD4000041 zeros) = .next (run1 (vec 0xD4000041 zeros)) ∧
    (run1 (vec 0xD4000041 zeros)).status = .running := ⟨rfl, by decide, rfl, by decide⟩

/-- The step from the state answers next, with that failure. -/
def FailsWith (s : State) (cause : FatalCause) (info : FatalInfo) : Prop :=
  step s = .next (run1 s) ∧ (run1 s).status = .failed cause info

/-- The causes raised by the pc check and by the instructions on the pool, `HostAllocFail` by both of its
instructions and `InactiveSegment` by all three. -/
theorem witness_FailuresArePreciseAndRecorded_pool :
    FailsWith { vec 0 zeros with pc := 2 } .pcOutOfBounds ⟨0, 2, 0, 2⟩ ∧
    FailsWith (vec 0x10000154 ⟨0, 0, 3, 0, 99, 0, 0, 0⟩) .inactiveSegment ⟨1, 0, 3, 99⟩ ∧
    FailsWith (vec 0x200000A3 ⟨0, 0, 2, 5, 0, 0, 0, 0⟩) .inactiveSegment ⟨2, 0, 2, 0⟩ ∧
    FailsWith (vec 0xC0000008 ⟨0, 9, 0, 0, 0, 0, 0, 0⟩) .inactiveSegment ⟨12, 0, 9, 0⟩ ∧
    FailsWith (vec 0x10000154 ⟨0, 0, 1, 0, 3, 0, 0, 0⟩) .offsetOutOfBounds ⟨1, 0, 1, 3⟩ ∧
    FailsWith (vec 0x200000A3 ⟨0, 0, 1, 5, 3, 0, 0, 0⟩) .offsetOutOfBounds ⟨2, 0, 1, 3⟩ ∧
    FailsWith (vec 0x90000002 zeros) .freeZero ⟨9, 0, 0, 0⟩ ∧
    FailsWith (vec 0x90000002 ⟨0, 0, 3, 0, 0, 0, 0, 0⟩) .freeInactive ⟨9, 0, 3, 0⟩ ∧
    FailsWith { vec 0x80000011 ⟨0, 4, 0, 0, 0, 0, 0, 0⟩ with allocAnswers := [none] } .hostAllocFail
      ⟨8, 0, 0, 4⟩ ∧
    FailsWith { vec 0xC0000008 ⟨0, 1, 0, 0, 0, 0, 0, 0⟩ with copyFails := [true] } .hostAllocFail
      ⟨12, 0, 1, 0⟩ :=
  ⟨⟨rfl, by decide⟩, ⟨rfl, by decide⟩, ⟨rfl, by decide⟩, ⟨rfl, by decide⟩, ⟨rfl, by decide⟩,
    ⟨rfl, by decide⟩, ⟨rfl, by decide⟩, ⟨rfl, by decide⟩, ⟨rfl, by decide⟩, rfl, by decide⟩

/-- The other causes, OUT at 255 and 256. -/
theorem witness_FailuresArePreciseAndRecorded :
    FailsWith (vec 0xEFFFFFFF zeros) .undefinedOpcode ⟨14, 0, 0, 0⟩ ∧
    FailsWith (vec 0xFFFFFFFF zeros) .undefinedOpcode ⟨15, 0, 0, 0⟩ ∧
    FailsWith (vec 0x500000CA zeros) .divideByZero ⟨5, 0, 0, 0⟩ ∧
    FailsWith (vec 0xA0000001 ⟨0, 256, 0, 0, 0, 0, 0, 0⟩) .outputRange ⟨10, 0, 0, 256⟩ ∧
    FailsWith { vec 0xA0000001 ⟨0, 255, 0, 0, 0, 0, 0, 0⟩ with writeFails := [true] } .outputWriteFail
      ⟨10, 0, 0, 255⟩ :=
  ⟨⟨rfl, by decide⟩, ⟨rfl, by decide⟩, ⟨rfl, by decide⟩, ⟨rfl, by decide⟩, rfl, by decide⟩

/-- Both sides of the equivalence occur: an ADD, and a DIV by 0. -/
theorem witness_StepFailsExactlyAsListed :
    (vec 0x300000CA zeros).status = .running ∧ (vec 0x300000CA zeros).stepFailureFree ∧
    (vec 0x500000CA zeros).status = .running ∧ (run1 (vec 0x500000CA zeros)).status.isFailed = true :=
  ⟨rfl, ⟨0x300000CA, by decide, trivial, trivial⟩, rfl, by decide⟩

/-- An ADD, a jump, a HALT and a failure. -/
theorem witness_PcAdvancesAsListed :
    (vec 0 zeros).status = .running ∧
    exec (.add .x1 .x2 .x3) (vec 0 zeros) = .next (nextOf (exec (.add .x1 .x2 .x3) (vec 0 zeros))) ∧
    exec (.loadp .x0 .x0) (vec 0 zeros) = .next (nextOf (exec (.loadp .x0 .x0) (vec 0 zeros))) ∧
    exec .halt (vec 0 zeros) = .next (nextOf (exec .halt (vec 0 zeros))) ∧
    exec .undef14 (vec 0 zeros) = .next (nextOf (exec .undef14 (vec 0 zeros))) := ⟨rfl, rfl, rfl, rfl, rfl⟩

/-- The last word of a short segment 0, and of the longest there can be. -/
theorem witness_PcIncrementNeverWraps :
    State.fetch { vec 0 zeros with pc := 1 } = some 0x70000000 ∧
    State.fetch { State.reset with mem := [(0, ⟨0xFFFFFFFF, []⟩)], pc := 0xFFFFFFFE } = some 0 := by decide

/-- `AMEND x2, x4, x3` at 0 stores to word 1 of segment 0. -/
def selfModifying : State := vec 0x200000A3 ⟨0, 0, 0, 0x12345678, 1, 0, 0, 0⟩

theorem witness_StoreToNextWordIsFetchedNext :
    selfModifying.status = .running ∧ selfModifying.fetch = some 0x200000A3 ∧
    decode 0x200000A3 = .amend .x2 .x4 .x3 ∧ selfModifying.reg .x2 = 0 ∧
    selfModifying.reg .x4 = selfModifying.pc + 1 ∧ InBounds selfModifying 0 (selfModifying.pc + 1) :=
  ⟨rfl, by decide, by decide, by decide, by decide, 2, by decide, by decide⟩

theorem witness_OnlyListedRegisterWritten :
    exec (.add .x1 .x2 .x3) (vec 0 zeros) = .next (nextOf (exec (.add .x1 .x2 .x3) (vec 0 zeros))) ∧
    writtenReg (.add .x1 .x2 .x3) ≠ some .x2 := ⟨rfl, by decide⟩

/-- Both ways the register itself can end: written with the result (an ADD), and kept (a CMOV that does not
move, a DIV by 0). -/
theorem witness_OnlyListedRegistersRead :
    (Reg.x1 ∉ readRegs (.add .x1 .x2 .x3) ∧
      exec (.add .x1 .x2 .x3) (vec 0 zeros) = .next (nextOf (exec (.add .x1 .x2 .x3) (vec 0 zeros)))) ∧
    (Reg.x1 ∉ readRegs (.cmov .x1 .x2 .x3) ∧
      exec (.cmov .x1 .x2 .x3) (vec 0 zeros) = .next (nextOf (exec (.cmov .x1 .x2 .x3) (vec 0 zeros)))) ∧
    Reg.x1 ∉ readRegs (.div .x1 .x2 .x3) ∧
    exec (.div .x1 .x2 .x3) (vec 0 zeros) = .next (nextOf (exec (.div .x1 .x2 .x3) (vec 0 zeros))) :=
  ⟨⟨by decide, rfl⟩, ⟨by decide, rfl⟩, by decide, rfl⟩

/-- An ALLOC that makes id 3 active, a FREE that ends id 1. -/
theorem witness_ActiveIdsChangeOnlyByAllocAndFree :
    Memory.active twoAnswers.mem 0 = true ∧
    exec (.alloc .x2 .x1) twoAnswers = .next (nextOf (exec (.alloc .x2 .x1) twoAnswers)) ∧
    Memory.active twoAnswers.mem 3 = false ∧
    Memory.active (nextOf (exec (.alloc .x2 .x1) twoAnswers)).mem 3 = true ∧
    Memory.active staleState.mem 0 = true ∧
    exec (.free .x2) staleState = .next (nextOf (exec (.free .x2) staleState)) ∧
    Memory.active staleState.mem 1 = true ∧
    Memory.active (nextOf (exec (.free .x2) staleState)).mem 1 = false :=
  ⟨by decide, rfl, by decide, by decide, by decide, rfl, by decide, by decide⟩

/-- Segment 0 of 2 words becomes a copy of one of 3. -/
theorem witness_SegmentLengthsChangeOnlyByLoadp :
    exec (.loadp .x1 .x0) loadState = .next loaded ∧ Memory.length? loadState.mem 0 = some 2 ∧
    Memory.length? loaded.mem 0 = some 3 ∧ (2 : Word) ≠ 3 := ⟨rfl, by decide, by decide, by decide⟩

/-- A word changed by a store, and one by a Load Program. -/
theorem witness_WordsChangeOnlyByAmendAndLoadp :
    exec (.amend .x2 .x4 .x3) selfModifying = .next (nextOf (exec (.amend .x2 .x4 .x3) selfModifying)) ∧
    Memory.read? selfModifying.mem 0 1 = some 0x70000000 ∧
    Memory.read? (nextOf (exec (.amend .x2 .x4 .x3) selfModifying)).mem 0 1 = some 0x12345678 ∧
    exec (.loadp .x1 .x0) loadState = .next loaded ∧ Memory.read? loadState.mem 0 1 = some 0x70000000 ∧
    Memory.read? loaded.mem 0 1 = some 20 := ⟨rfl, by decide, by decide, rfl, by decide, by decide⟩

/-- An OUT that emits and an instruction that does not. -/
theorem witness_OutputLogOnlyGrowsAndIsUnread :
    State.status { vec 0 zeros with writeFails := [false] } = .running ∧
    exec (.out .x1) { vec 0 zeros with writeFails := [false] } =
      .next (nextOf (exec (.out .x1) { vec 0 zeros with writeFails := [false] })) ∧
    (nextOf (exec (.out .x1) { vec 0 zeros with writeFails := [false] })).status = .running ∧
    Instr.opcode (.out .x1) = 10 ∧
    exec .halt (vec 0 zeros) = .next (nextOf (exec .halt (vec 0 zeros))) :=
  ⟨rfl, rfl, by decide, rfl, rfl⟩

theorem witness_InputConsumedOnlyByIn :
    exec (.inp .x1) oneByte = .next (nextOf (exec (.inp .x1) oneByte)) ∧
    (nextOf (exec (.inp .x1) oneByte)).input = [] ∧
    exec .halt oneByte = .next (nextOf (exec .halt oneByte)) := ⟨rfl, by decide, rfl⟩

theorem witness_RecyclingSetIsUnread :
    exec (.free .x2) staleState = .next (nextOf (exec (.free .x2) staleState)) ∧
    (nextOf (exec (.free .x2) staleState)).recycling = [1, 3] := ⟨rfl, by decide⟩

/-- A FREE, which changes the pool and the recycling set, and an IN that meets the end of the stream. -/
theorem witness_EveryStepKeepsInvariant :
    staleState.Inv ∧ step staleState = .next (run1 staleState) ∧
    (vec 0xB0000001 zeros).Inv ∧ step (vec 0xB0000001 zeros) = .next (run1 (vec 0xB0000001 zeros)) :=
  ⟨by decide, rfl, by decide, rfl⟩

theorem witness_LaunchHasInvariant :
    State.launch [0xD4000041, 0x70000000] [0x41] false =
      some { State.reset with
        mem := [(0, segmentOf [0xD4000041, 0x70000000])], input := [0x41], inputEnded := false } := rfl

/-- The shortest and the longest program. -/
theorem witness_LaunchGivesResetStateWithProgram :
    1 ≤ [(0x70000000 : Word)].length ∧ [(0x70000000 : Word)].length ≤ 2 ^ 32 - 1 ∧
    1 ≤ (List.replicate (2 ^ 32 - 1) (0 : Word)).length ∧
    (List.replicate (2 ^ 32 - 1) (0 : Word)).length ≤ 2 ^ 32 - 1 := by
  simp only [List.length_replicate]; decide

theorem witness_StatusOutputsShowRunStatus :
    State.reset.status = .running ∧ (run1 (vec 0x70000000 zeros)).status = .halted ∧
    (run1 (vec 0xF0000000 zeros)).status = .failed .undefinedOpcode ⟨15, 0, 0, 0⟩ := by decide

theorem witness_ProcessResultZeroOnlyOnHalt :
    State.reset.status = .running ∧ (run1 (vec 0x70000000 zeros)).status = .halted ∧
    (run1 (vec 0x90000000 zeros)).status = .failed .freeZero ⟨9, 0, 0, 0⟩ := by decide

end Sys2Proof.Tests
end

section
/-! PROOFS of the statements about the machine's state (spec/10_state.md). `exec` is read in two halves: the
effect an instruction decides on, looking at the state, and what that effect then does. Each statement about every
instruction is then one about the twelve effects, or about what the decision looks at. -/

namespace Sys2Proof.Machine

/-! ## Effects: what an instruction decides on, and what that does -/

/-- What an instruction does to the state once its operands are read and its checks made. -/
inductive Effect where
  | fail (cause : FatalCause) (opcode : BitVec 4) (id off : Word)
  | halt
  | skip
  | result (a : Reg) (v : Word)
  | store (id off v : Word)
  | grant (b : Reg) (id n : Word)
  | release (id : Word)
  | emit (v : Byte)
  | takeByte (c : Reg) (v : Byte)
  | meetEof (c : Reg)
  | jump (target : Word)
  | load (src target : Word)

/-- The state after an effect. -/
def Effect.apply (e : Effect) (s : State) : State :=
  match e with
  | .fail cause opcode id off => s.raiseFatal cause opcode id off
  | .halt => s.halt
  | .skip => s.advance
  | .result a v => s.finishWith a v
  | .store id off v => (s.store id off v).advance
  | .grant b id n => ((s.allocate id n).setReg b id).advance
  | .release id => (s.release id).advance
  | .emit v => (s.emit v).advance
  | .takeByte c v => (s.takeByte.setReg c (wordOfByte v)).advance
  | .meetEof c => (s.meetEof.setReg c eofWord).advance
  | .jump target => s.setPc target
  | .load src target => (s.replaceProgram src).setPc target

/-- The effect an instruction decides on; none for an IN the host has not answered. -/
def effectOf (i : Instr) (s : State) : Option Effect :=
  match i with
  | .cmov a b c => some (if conditionHolds (s.reg c) then .result a (s.reg b) else .skip)
  | .aidx a b c =>
    some (match checkAccess s.mem (s.reg b) (s.reg c) with
      | .inactive => .fail .inactiveSegment 1 (s.reg b) (s.reg c)
      | .outOfBounds => .fail .offsetOutOfBounds 1 (s.reg b) (s.reg c)
      | .pass => .result a (loadWord s.mem (s.reg b) (s.reg c)))
  | .amend a b c =>
    some (match checkAccess s.mem (s.reg a) (s.reg b) with
      | .inactive => .fail .inactiveSegment 2 (s.reg a) (s.reg b)
      | .outOfBounds => .fail .offsetOutOfBounds 2 (s.reg a) (s.reg b)
      | .pass => .store (s.reg a) (s.reg b) (s.reg c))
  | .add a b c => some (.result a (s.reg b + s.reg c))
  | .mul a b c => some (.result a (s.reg b * s.reg c))
  | .div a b c =>
    some (if divisorIsZero (s.reg c) then .fail .divideByZero 5 0 0 else .result a (s.reg b / s.reg c))
  | .nand a b c => some (.result a (~~~(s.reg b &&& s.reg c)))
  | .halt => some .halt
  | .alloc b c =>
    some (match s.allocGranted with
      | none => .fail .hostAllocFail 8 0 (s.reg c)
      | some id => .grant b id (s.reg c))
  | .free c =>
    some (if s.reg c = 0 then .fail .freeZero 9 0 0
      else if Memory.active s.mem (s.reg c) then .release (s.reg c)
      else .fail .freeInactive 9 (s.reg c) 0)
  | .out c =>
    some (if byteInRange (s.reg c) then
        if s.writeFailsNow then .fail .outputWriteFail 10 0 (s.reg c) else .emit (byteOfWord (s.reg c))
      else .fail .outputRange 10 0 (s.reg c))
  | .inp c =>
    match s.inAnswer with
    | .byte v => some (.takeByte c v)
    | .eof => some (.meetEof c)
    | .pending => none
  | .loadp b c =>
    some (if s.reg b = 0 then .jump (s.reg c)
      else if Memory.active s.mem (s.reg b) then
        if s.copyFailsNow then .fail .hostAllocFail 12 (s.reg b) 0 else .load (s.reg b) (s.reg c)
      else .fail .inactiveSegment 12 (s.reg b) 0)
  | .ldi a value => some (.result a (immediate value))
  | .undef14 => some (.fail .undefinedOpcode 14 0 0)
  | .undef15 => some (.fail .undefinedOpcode 15 0 0)

/-- `exec` is the decision followed by its effect. -/
theorem exec_eq_effect (i : Instr) (s : State) :
    exec i s = (effectOf i s).elim (.fault .awaitingInput) fun e => .next (e.apply s) := by
  cases i with
  | add | mul | nand | halt | ldi | undef14 | undef15 => rfl
  | cmov => simp only [exec, execCmov, effectOf]; split <;> rfl
  | aidx a b c => simp only [exec, execAidx, effectOf]; cases checkAccess s.mem (s.reg b) (s.reg c) <;> rfl
  | amend a b c => simp only [exec, execAmend, effectOf]; cases checkAccess s.mem (s.reg a) (s.reg b) <;> rfl
  | div => simp only [exec, execDiv, effectOf]; split <;> rfl
  | alloc => simp only [exec, execAlloc, effectOf]; cases s.allocGranted <;> rfl
  | free => simp only [exec, execFree, effectOf]; split_ifs <;> rfl
  | out => simp only [exec, execOut, effectOf]; split_ifs <;> rfl
  | inp => simp only [exec, execInp, effectOf]; cases s.inAnswer <;> rfl
  | loadp => simp only [exec, execLoadp, effectOf]; split_ifs <;> rfl

/-- The next states of an instruction are those its effect gives. -/
theorem exec_next_iff (i : Instr) (s t : State) :
    exec i s = .next t ↔ ∃ e, effectOf i s = some e ∧ e.apply s = t := by
  rw [exec_eq_effect]
  cases effectOf i s <;> simp

/-! ### Where an effect comes from -/

/-- The instructions an effect can be of, and what their checks have established. -/
def Effect.ArisesFrom (e : Effect) (i : Instr) (s : State) : Prop :=
  match e with
  | .fail _ _ _ _ => True
  | .halt => i = .halt
  | .skip => ∃ a b c, i = .cmov a b c
  | .result a _ => writtenReg i = some a
  | .store _ _ _ => ∃ a b c, i = .amend a b c
  | .grant b id _ => (∃ c, i = .alloc b c) ∧ s.allocGranted = some id
  | .release id => (∃ c, i = .free c ∧ s.reg c = id) ∧ id ≠ 0 ∧ Memory.active s.mem id = true
  | .emit _ => ∃ c, i = .out c
  | .takeByte c v => i = .inp c ∧ s.inAnswer = .byte v
  | .meetEof c => i = .inp c ∧ s.inAnswer = .eof
  | .jump target => ∃ b c, i = .loadp b c ∧ s.reg c = target
  | .load src target =>
    (∃ b c, i = .loadp b c ∧ s.reg b = src ∧ s.reg c = target) ∧ src ≠ 0 ∧ Memory.active s.mem src = true

theorem effectOf_arisesFrom {i : Instr} {s : State} {e : Effect} (h : effectOf i s = some e) :
    e.ArisesFrom i s := by
  cases i with
  | add | mul | nand | halt | ldi | undef14 | undef15 => cases h; simp [Effect.ArisesFrom, writtenReg]
  | cmov | aidx | amend | div | alloc =>
    simp only [effectOf, Option.some.injEq] at h
    subst h
    split <;> simp_all [Effect.ArisesFrom, writtenReg]
  | free | out | loadp =>
    simp only [effectOf, Option.some.injEq] at h
    subst h
    split_ifs <;> simp_all [Effect.ArisesFrom]
  | inp =>
    simp only [effectOf] at h
    split at h <;> cases h <;> simp_all [Effect.ArisesFrom]

/-- Everything an instruction that answers next can have done. -/
theorem exec_next_effect {i : Instr} {s t : State} (h : exec i s = .next t) :
    ∃ e : Effect, e.ArisesFrom i s ∧ t = e.apply s := by
  obtain ⟨e, he, rfl⟩ := (exec_next_iff i s t).1 h
  exact ⟨e, effectOf_arisesFrom he, rfl⟩

/-! ### What the decision looks at -/

/-- Two states alike in all that the instruction looks at before it decides: the registers R21 lists as read,
the pool, and the host's answers. -/
structure LooksAlike (i : Instr) (s u : State) : Prop where
  regs : ∀ q ∈ readRegs i, u.reg q = s.reg q
  mem : u.mem = s.mem
  granted : u.allocGranted = s.allocGranted
  copyFails : u.copyFailsNow = s.copyFailsNow
  writeFails : u.writeFailsNow = s.writeFailsNow
  input : u.inAnswer = s.inAnswer

theorem effectOf_eq_of_looksAlike {i : Instr} {s u : State} (h : LooksAlike i s u) :
    effectOf i u = effectOf i s := by
  obtain ⟨hregs, hmem, hgranted, hcopy, hwrite, hinput⟩ := h
  cases i <;> simp_all [effectOf, readRegs]

/-! ## Registers (R20, R21) -/

/-- The register an effect writes. -/
def Effect.writes : Effect → Option Reg
  | .result a _ => some a
  | .grant b _ _ => some b
  | .takeByte c _ | .meetEof c => some c
  | .fail _ _ _ _ | .halt | .skip | .store _ _ _ | .release _ | .emit _ | .jump _ | .load _ _ => none

/-- An effect writes at most the register R21 lists for its instruction. -/
theorem Effect.writes_eq {e : Effect} {i : Instr} {s : State} (h : e.ArisesFrom i s) :
    e.writes = none ∨ e.writes = writtenReg i := by
  cases e with
  | result a v => exact .inr h.symm
  | grant b id n => obtain ⟨⟨c, rfl⟩, -⟩ := h; exact .inr rfl
  | takeByte c v => obtain ⟨rfl, -⟩ := h; exact .inr rfl
  | meetEof c => obtain ⟨rfl, -⟩ := h; exact .inr rfl
  | _ => exact .inl rfl

theorem Effect.apply_reg (e : Effect) (s : State) (r : Reg) (h : e.writes ≠ some r) :
    (e.apply s).reg r = s.reg r := by
  cases e with
  | result a v | grant a id n | takeByte a v | meetEof a =>
    have hr : r ≠ a := fun hra => h (congrArg some hra.symm)
    simp [Effect.apply, hr]
  | _ => rfl

theorem RegFile.set_set (f : RegFile) (r : Reg) (v w : Word) : (f.set r v).set r w = f.set r w := by
  cases r <;> rfl

theorem RegFile.set_comm (f : RegFile) {a r : Reg} (h : a ≠ r) (v w : Word) :
    (f.set r v).set a w = (f.set a w).set r v := by
  refine RegFile.ext_get _ _ fun q => ?_
  simp only [RegFile.get_set]
  by_cases hq : q = a
  · subst hq
    simp [h]
  · simp [hq]

/-- An effect that writes a register forgets what was there before. -/
theorem Effect.apply_setReg_written (e : Effect) (s : State) (r : Reg) (v : Word)
    (h : e.writes = some r) : e.apply (s.setReg r v) = e.apply s := by
  cases e with
  | result | grant | takeByte | meetEof =>
    cases h
    simp [Effect.apply, State.finishWith, State.setReg, State.advance, State.setPc, State.allocate,
      State.takeByte, State.meetEof, RegFile.set_set]
  | _ => cases h

/-- An effect that does not write a register carries its value along. -/
theorem Effect.apply_setReg_unwritten (e : Effect) (s : State) (r : Reg) (v : Word)
    (h : e.writes ≠ some r) : e.apply (s.setReg r v) = (e.apply s).setReg r v := by
  cases e with
  | result a w | grant a id n | takeByte a w | meetEof a =>
    have har : a ≠ r := fun e => h (congrArg some e)
    simp [Effect.apply, State.finishWith, State.setReg, State.advance, State.setPc, State.allocate,
      State.takeByte, State.meetEof, RegFile.set_comm _ har]
  | _ => rfl

theorem looksAlike_setReg {i : Instr} {r : Reg} (hr : r ∉ readRegs i) (s : State) (v : Word) :
    LooksAlike i s (s.setReg r v) where
  regs q hq := by
    have hqr : q ≠ r := fun e => hr (e ▸ hq)
    simp [hqr]
  mem := rfl
  granted := rfl
  copyFails := rfl
  writeFails := rfl
  input := rfl

/-- Settles O35: an effect writes its instruction's one register at most, and leaves the others. -/
theorem onlyListedRegisterWritten : Obligations.OnlyListedRegisterWritten := by
  intro i s t r h hr
  obtain ⟨e, he, rfl⟩ := exec_next_effect h
  refine e.apply_reg s r fun hw => ?_
  rcases e.writes_eq he with hnone | hlisted
  · simp [hw] at hnone
  · exact hr (hlisted ▸ hw)

/-- With another value in a register it does not read, an instruction has the same effect: it overwrites that
value, or leaves it where it is. -/
theorem exec_setReg_unread {i : Instr} {s t : State} {r : Reg} (v : Word) (hr : r ∉ readRegs i)
    (h : exec i s = .next t) :
    exec i (s.setReg r v) = .next t ∨
      exec i (s.setReg r v) = .next (t.setReg r v) ∧ t.reg r = s.reg r := by
  obtain ⟨e, he, rfl⟩ := (exec_next_iff i s t).1 h
  have hu : exec i (s.setReg r v) = .next (e.apply (s.setReg r v)) :=
    (exec_next_iff _ _ _).2 ⟨e, (effectOf_eq_of_looksAlike (looksAlike_setReg hr s v)).trans he, rfl⟩
  by_cases hw : e.writes = some r
  · exact .inl (e.apply_setReg_written s r v hw ▸ hu)
  · exact .inr ⟨e.apply_setReg_unwritten s r v hw ▸ hu, e.apply_reg s r hw⟩

theorem sameOutsideRegs_setReg (s : State) (r : Reg) (v : Word) : SameOutsideRegs s (s.setReg r v) :=
  ⟨rfl, ⟨rfl, rfl⟩, ⟨rfl, rfl, rfl⟩, rfl, rfl, rfl, rfl, rfl⟩

theorem sameOutsideRegs_refl (s : State) : SameOutsideRegs s s :=
  ⟨rfl, ⟨rfl, rfl⟩, ⟨rfl, rfl, rfl⟩, rfl, rfl, rfl, rfl, rfl⟩

/-- Settles O36: the decision does not look at the register, and its effect overwrites or keeps it. -/
theorem onlyListedRegistersRead : Obligations.OnlyListedRegistersRead := by
  intro i s t r v hr h
  rcases exec_setReg_unread v hr h with hu | ⟨hu, hkept⟩
  · exact ⟨t, hu, fun _ _ => rfl, .inl rfl, rfl, sameOutsideRegs_refl t⟩
  · refine ⟨t.setReg r v, hu, fun q hq => ?_, .inr ⟨?_, hkept⟩, rfl, sameOutsideRegs_setReg t r v⟩
    · simp [hq]
    · simp

/-! ## Run status and pc (R23 to R25) -/

/-- From a running machine, only HALT ends in Halted. -/
theorem exec_halted_iff {i : Instr} {s t : State} (hs : s.status = .running) (h : exec i s = .next t) :
    t.status = .halted ↔ i = .halt := by
  constructor
  · intro ht
    obtain ⟨e, he, rfl⟩ := exec_next_effect h
    cases e with
    | halt => exact he
    | fail => cases ht
    | _ => exact absurd (hs.symm.trans ht) (by decide)
  · rintro rfl
    have ht : s.halt = t := by simpa [exec, execHalt] using h
    exact ht ▸ halt_status s

theorem opcodeField_toNat (w : Word) : (opcodeField w).toNat = w.toNat / 2 ^ 28 := by
  have hw := w.isLt
  simp only [opcodeField, BitVec.extractLsb'_toNat, Nat.shiftRight_eq_div_pow]
  omega

theorem opcode_decode (w : Word) : (decode w).opcode = opcodeField w := by
  have hlt := (opcodeField w).isLt
  refine BitVec.eq_of_toNat_eq ?_
  unfold decode
  interval_cases hop : (opcodeField w).toNat <;> rfl

theorem opcode_eq_seven_iff (i : Instr) : i.opcode.toNat = 7 ↔ i = .halt := by
  cases i <;> simp [Instr.opcode]

theorem decode_eq_halt_iff (w : Word) : decode w = .halt ↔ w.toNat / 2 ^ 28 = 7 := by
  rw [← opcode_eq_seven_iff, opcode_decode, opcodeField_toNat]

/-- Settles O29: only the instruction HALT halts, and only opcode 7 decodes to it. -/
theorem haltedExactlyByOpcodeSeven : Obligations.HaltedExactlyByOpcodeSeven := by
  intro s t h
  obtain ⟨hs, ⟨hf, rfl⟩ | ⟨w, hf, hx⟩⟩ := step_next_cases s t h
  · simp [hf]
  · simp [hf, exec_halted_iff hs hx, decode_eq_halt_iff]

/-- After an instruction that leaves the machine running pc is one more, LOADP apart (R94). -/
theorem exec_pc {i : Instr} {s t : State} (hi : ∀ b c, i ≠ .loadp b c) (hs : s.status = .running)
    (h : exec i s = .next t) : t.pc = if t.status = .running then s.pc + 1 else s.pc := by
  obtain ⟨e, he, rfl⟩ := exec_next_effect h
  cases e with
  | fail | halt => simp [Effect.apply]
  | jump target => obtain ⟨b, c, rfl, -⟩ := he; exact absurd rfl (hi b c)
  | load src target => obtain ⟨⟨b, c, rfl, -⟩, -⟩ := he; exact absurd rfl (hi b c)
  | _ => simp [Effect.apply, hs]

/-- After a LOADP that leaves the machine running pc is x[C] (R144). -/
theorem exec_loadp_pc {b c : Reg} {s t : State} (hs : s.status = .running)
    (h : exec (.loadp b c) s = .next t) : t.pc = if t.status = .running then s.reg c else s.pc := by
  obtain ⟨e, he, rfl⟩ := exec_next_effect h
  cases e with
  | fail => simp [Effect.apply]
  | jump target =>
    obtain ⟨b', c', hi, hc⟩ := he
    cases hi
    simp [Effect.apply, hs, hc]
  | load src target =>
    obtain ⟨⟨b', c', hi, -, hc⟩, -⟩ := he
    cases hi
    simp [Effect.apply, hs, hc]
  | _ => simp [Effect.ArisesFrom, writtenReg] at he

/-- Settles O32, LOADP apart from the others. -/
theorem pcAdvancesAsListed : Obligations.PcAdvancesAsListed := by
  intro i s t hs h
  cases i with
  | loadp b c => exact exec_loadp_pc hs h
  | _ => exact exec_pc (by simp) hs h

/-- Settles O33: the fetch itself shows pc below the length of segment 0, which is a word. -/
theorem pcIncrementNeverWraps : Obligations.PcIncrementNeverWraps := by
  intro s w hf
  obtain ⟨n, hn, hlt⟩ := (fetch_isSome s).1 (Option.isSome_iff_exists.2 ⟨w, hf⟩)
  have hinc : (s.pc + 1).toNat = s.pc.toNat + 1 := by
    have hbound := n.isLt
    rw [BitVec.toNat_add]
    exact Nat.mod_eq_of_lt (show s.pc.toNat + 1 < 2 ^ 32 by omega)
  exact ⟨n, hn, hinc, by omega⟩

/-! ## The input stream (R29, R54, R60) -/

theorem Effect.apply_inEof_of_met (e : Effect) {s : State} (h : s.inEof = true) :
    (e.apply s).inEof = true := by
  cases e with
  | meetEof c => rfl
  | _ => exact h

/-- Once the end was met, an IN gives 0xFFFFFFFF (R143). -/
theorem exec_inp_of_met (c : Reg) {s : State} (h : s.inEof = true) :
    exec (.inp c) s = .next (s.meetEof.setReg c eofWord).advance := by
  have heof : s.inAnswer = .eof := (inAnswer_eof_iff s).2 (.inl h)
  simp only [exec, execInp, heof]

theorem offerByte_inEof (s : State) (v : Byte) : (s.offerByte v).inEof = s.inEof := by
  unfold State.offerByte
  split <;> rfl

/-- Settles O21: no effect clears the mark, and IN looks at it before the bytes offered. -/
theorem endOfStreamIsSticky : Obligations.EndOfStreamIsSticky := by
  refine ⟨fun i s t hmet h => ?_, fun c s v hmet => ?_⟩
  · obtain ⟨e, -, rfl⟩ := exec_next_effect h
    exact e.apply_inEof_of_met hmet
  · refine ⟨_, exec_inp_of_met c ((offerByte_inEof s v).trans hmet), ?_⟩
    simp [eofWord]

theorem Effect.apply_inputEnded (e : Effect) (s : State) : (e.apply s).inputEnded = s.inputEnded := by
  cases e <;> rfl

theorem Effect.sameInput_or_inp {e : Effect} {i : Instr} {s : State} (h : e.ArisesFrom i s) :
    SameInput s (e.apply s) ∨ ∃ c, i = .inp c := by
  cases e with
  | takeByte c v | meetEof c => exact .inr ⟨c, h.1⟩
  | _ => exact .inl ⟨rfl, rfl, rfl⟩

/-- The input left is the old input, or the old input without its first byte. -/
theorem Effect.apply_input {e : Effect} {i : Instr} {s : State} (h : e.ArisesFrom i s) :
    (e.apply s).input = s.input ∨ ∃ v, s.input = v :: (e.apply s).input := by
  cases e with
  | takeByte c v =>
    obtain ⟨-, rest, hrest⟩ := (inAnswer_byte_iff s v).1 h.2
    exact .inr ⟨v, by simp [Effect.apply, hrest]⟩
  | _ => exact .inl rfl

/-- Settles O41: of the effects, only the two of IN touch the stream. -/
theorem inputConsumedOnlyByIn : Obligations.InputConsumedOnlyByIn := by
  intro i s t h
  obtain ⟨e, he, rfl⟩ := exec_next_effect h
  exact ⟨e.sameInput_or_inp he, e.apply_inputEnded s, e.apply_input he⟩

/-! ## The output log (R30) -/

/-- The bytes an effect emits. -/
def Effect.emitted : Effect → List Byte
  | .emit v => [v]
  | _ => []

/-- From any log an effect is the same but for the log, to which it appends what it emits. -/
theorem Effect.apply_withLog (e : Effect) (s : State) (log : List Byte) :
    e.apply { s with outLog := log } = { e.apply s with outLog := log ++ e.emitted } := by
  cases e with
  | emit v => rfl
  | _ => simp only [Effect.emitted, List.append_nil]; rfl

theorem Effect.apply_outLog (e : Effect) (s : State) : (e.apply s).outLog = s.outLog ++ e.emitted :=
  congrArg State.outLog (e.apply_withLog s s.outLog)

theorem looksAlike_withLog (i : Instr) (s : State) (log : List Byte) :
    LooksAlike i s { s with outLog := log } :=
  ⟨fun _ _ => rfl, rfl, rfl, rfl, rfl, rfl⟩

theorem opcode_eq_ten_iff (i : Instr) : i.opcode = 10 ↔ ∃ c, i = .out c := by
  cases i <;> simp [Instr.opcode]

/-- A running machine emits one byte where the instruction is an OUT and the machine still runs after it, and
none otherwise. -/
theorem Effect.emitted_eq {e : Effect} {i : Instr} {s : State} (hs : s.status = .running)
    (h : e.ArisesFrom i s) :
    if (e.apply s).status = .running ∧ i.opcode = 10 then ∃ v, e.emitted = [v] else e.emitted = [] := by
  cases e with
  | emit v => rw [if_pos ⟨hs, (opcode_eq_ten_iff i).2 h⟩]; exact ⟨v, rfl⟩
  | fail => rw [if_neg (by simp [Effect.apply])]; rfl
  | _ =>
    rw [if_neg]
    · rfl
    · rintro ⟨-, hop⟩
      obtain ⟨c, rfl⟩ := (opcode_eq_ten_iff i).1 hop
      simp [Effect.ArisesFrom, writtenReg] at h

/-- Settles O40: one effect emits, that of an OUT that does not fail, and no decision looks at the log. -/
theorem outputLogOnlyGrowsAndIsUnread : Obligations.OutputLogOnlyGrowsAndIsUnread := by
  refine ⟨fun i s t hs h => ?_, fun i s t log h => ?_⟩
  · obtain ⟨e, he, rfl⟩ := exec_next_effect h
    simpa [e.apply_outLog s] using e.emitted_eq hs he
  · obtain ⟨e, he, rfl⟩ := (exec_next_iff i s t).1 h
    refine ⟨e.emitted, e.apply_outLog s, (exec_next_iff _ _ _).2 ⟨e, ?_, e.apply_withLog s log⟩⟩
    exact (effectOf_eq_of_looksAlike (looksAlike_withLog i s log)).trans he

/-! ## The recycling set (R28, R31) -/

theorem Effect.apply_withRecycling (e : Effect) (s : State) (l : List Word) :
    ∃ l', e.apply { s with recycling := l } = { e.apply s with recycling := l' } := by
  cases e with
  | grant b id n => exact ⟨l.filter (· ≠ id), rfl⟩
  | release id => exact ⟨id :: l, rfl⟩
  | _ => exact ⟨l, rfl⟩

theorem looksAlike_withRecycling (i : Instr) (s : State) (l : List Word) :
    LooksAlike i s { s with recycling := l } :=
  ⟨fun _ _ => rfl, rfl, rfl, rfl, rfl, rfl⟩

/-- Settles O42: no decision looks at the recycling set; the effects of ALLOC and FREE change it as it is. -/
theorem recyclingSetIsUnread : Obligations.RecyclingSetIsUnread := by
  intro i s t l h
  obtain ⟨e, he, rfl⟩ := (exec_next_iff i s t).1 h
  obtain ⟨l', hl'⟩ := e.apply_withRecycling s l
  refine ⟨l', (exec_next_iff _ _ _).2 ⟨e, ?_, hl'⟩⟩
  exact (effectOf_eq_of_looksAlike (looksAlike_withRecycling i s l)).trans he

/-! ## The segment pool (R34) -/

/-- Settles O37, by the effects that change the pool: a grant, a release, a store and a copy. -/
theorem activeIdsChangeOnlyByAllocAndFree : Obligations.ActiveIdsChangeOnlyByAllocAndFree := by
  intro i s t id hzero h
  obtain ⟨e, he, rfl⟩ := exec_next_effect h
  cases e with
  | grant b j n =>
    obtain ⟨⟨c, rfl⟩, hj⟩ := he
    obtain ⟨-, hj0, -⟩ := (allocGranted_eq_some_iff s j).1 hj
    simp only [Effect.apply, advance_mem, setReg_mem, allocate_mem, active_alloc]
    refine ⟨fun hbefore hafter => ?_, fun hbefore hafter => by simp [hbefore] at hafter⟩
    obtain rfl : id = j := by simpa [hbefore] using hafter
    exact ⟨hj0, hj, b, c, rfl⟩
  | release j =>
    obtain ⟨⟨c, rfl, rfl⟩, hj0, -⟩ := he
    simp only [Effect.apply, advance_mem, release_mem, active_free]
    refine ⟨fun hbefore hafter => by simp [hbefore] at hafter, fun hbefore hafter => ?_⟩
    obtain rfl : id = s.reg c := by simpa [hbefore] using hafter
    exact ⟨hj0, c, rfl, rfl⟩
  | store j off v =>
    simp only [Effect.apply, advance_mem, store_mem, active_write]
    exact ⟨fun hbefore hafter => by simp [hbefore] at hafter, fun hbefore hafter => by simp [hbefore] at hafter⟩
  | load src target =>
    simp only [Effect.apply, setPc_mem, replaceProgram_mem, active_replaceZero s.mem src id he.2.2]
    refine ⟨fun hbefore hafter => ?_, fun hbefore hafter => by simp [hbefore] at hafter⟩
    obtain rfl : id = 0 := by simpa [hbefore] using hafter
    exact absurd (hbefore.symm.trans hzero) (by decide)
  | _ => exact ⟨fun hbefore hafter => absurd (hbefore.symm.trans hafter) (by decide),
      fun hbefore hafter => absurd (hbefore.symm.trans hafter) (by decide)⟩

theorem Memory.length?_eq_some_iff (m : Memory) (id n : Word) :
    Memory.length? m id = some n ↔ ∃ g, Memory.segment? m id = some g ∧ g.len = n := by
  simp [Memory.length?]

theorem Memory.length?_alloc (m : Memory) (id n j : Word) :
    Memory.length? (Memory.alloc m id n) j = if j = id then some n else Memory.length? m j := by
  simp only [Memory.length?, Memory.segment?_alloc]
  split_ifs <;> rfl

theorem Memory.length?_free (m : Memory) (id j : Word) :
    Memory.length? (Memory.free m id) j = if j = id then none else Memory.length? m j := by
  simp only [Memory.length?, Memory.segment?_free]
  split_ifs <;> rfl

theorem Memory.length?_replaceZero_of_ne (m : Memory) (src : Word) {j : Word} (hj : j ≠ 0)
    (hsrc : Memory.active m src = true) :
    Memory.length? (Memory.replaceZero m src) j = Memory.length? m j := by
  obtain ⟨g, hg⟩ := (Memory.active_iff m src).1 hsrc
  simp only [Memory.length?, Memory.segment?_replaceZero m src j g hg, if_neg hj]

theorem Memory.length?_of_inactive {m : Memory} {id : Word} (h : Memory.active m id = false) :
    Memory.length? m id = none := by
  simpa [Memory.active_eq_length?] using h

/-- Settles O38, by the same four effects: a grant is of an inactive id and a store keeps every length. -/
theorem segmentLengthsChangeOnlyByLoadp : Obligations.SegmentLengthsChangeOnlyByLoadp := by
  intro i s t id m n h hm hn hne
  obtain ⟨e, he, rfl⟩ := exec_next_effect h
  cases e with
  | grant b j k =>
    obtain ⟨-, -, hj⟩ := (allocGranted_eq_some_iff s j).1 he.2
    have hid : id ≠ j := by
      rintro rfl
      simp [Memory.length?_of_inactive hj] at hm
    simp only [Effect.apply, advance_mem, setReg_mem, allocate_mem, Memory.length?_alloc, if_neg hid, hm,
      Option.some.injEq] at hn
    exact absurd hn hne
  | release j =>
    simp only [Effect.apply, advance_mem, release_mem, Memory.length?_free, hm] at hn
    split_ifs at hn
    exact absurd (Option.some.inj hn) hne
  | store j off v =>
    simp only [Effect.apply, advance_mem, store_mem, Memory.length?_write, hm, Option.some.injEq] at hn
    exact absurd hn hne
  | load src target =>
    obtain ⟨⟨b, c, rfl, rfl, -⟩, hsrc0, hsrc⟩ := he
    refine ⟨?_, b, c, rfl, hsrc0⟩
    by_contra hid
    simp only [Effect.apply, setPc_mem, replaceProgram_mem,
      Memory.length?_replaceZero_of_ne s.mem _ hid hsrc, hm, Option.some.injEq] at hn
    exact hne hn
  | _ => exact absurd (Option.some.inj (hm.symm.trans hn)) hne

/-! ## The invariant (R34) -/

theorem recycling_ok_iff (s : State) :
    (s.recycling.all fun id => decide (id ≠ 0) && !Memory.active s.mem id) = true ↔
      ∀ id ∈ s.recycling, id ≠ 0 ∧ Memory.active s.mem id = false := by
  simp

/-- ALLOC: the granted id was nonzero and not active, and leaves the recycling set (R45). -/
theorem State.Inv.allocate {s : State} (h : s.Inv) (id n : Word) : (s.allocate id n).Inv := by
  obtain ⟨hwf, hzero, hnodup, hrec, heof⟩ := h
  rw [recycling_ok_iff] at hrec
  refine ⟨Memory.alloc_wf s.mem id n hwf, ?_, hnodup.filter _, (recycling_ok_iff _).2 ?_, heof⟩
  · rw [allocate_mem, active_alloc, hzero, Bool.or_true]
  · intro j hj
    obtain ⟨hmem, hne⟩ : j ∈ s.recycling ∧ j ≠ id := by simpa using hj
    obtain ⟨hj0, hinactive⟩ := hrec j hmem
    exact ⟨hj0, by simp [active_alloc, hne, hinactive]⟩

/-- FREE: the freed id was nonzero and active, so it joins a recycling set that did not hold it (R47). -/
theorem State.Inv.release {s : State} (h : s.Inv) {id : Word} (hid : id ≠ 0)
    (hactive : Memory.active s.mem id = true) : (s.release id).Inv := by
  obtain ⟨hwf, hzero, hnodup, hrec, heof⟩ := h
  rw [recycling_ok_iff] at hrec
  have hfresh : id ∉ s.recycling := fun hmem => by simp [(hrec id hmem).2] at hactive
  refine ⟨Memory.free_wf s.mem id hwf, ?_, hnodup.cons hfresh, (recycling_ok_iff _).2 ?_, heof⟩
  · rw [release_mem, active_free, hzero, decide_eq_false hid.symm]; rfl
  · intro j hj
    rcases List.mem_cons.1 hj with rfl | hmem
    · exact ⟨hid, by simp [active_free]⟩
    · obtain ⟨hj0, hinactive⟩ := hrec j hmem
      exact ⟨hj0, by simp [active_free, hinactive]⟩

/-- A new pool in canonical form with the same active ids keeps the invariant. -/
theorem State.Inv.of_same_active {s u : State} (h : s.Inv) (hwf : Memory.wf u.mem = true)
    (hactive : ∀ id, Memory.active u.mem id = Memory.active s.mem id)
    (hrec : u.recycling = s.recycling) (hinput : SameInput s u) : u.Inv := by
  obtain ⟨-, hzero, hnodup, hok, heof⟩ := h
  obtain ⟨hin, hended, hmet⟩ := hinput
  refine ⟨hwf, (hactive 0).trans hzero, hrec ▸ hnodup, ?_, ?_⟩
  · simpa only [hrec, hactive] using hok
  · simpa only [hin, hended, hmet] using heof

/-- AMEND (R44). -/
theorem State.Inv.store {s : State} (h : s.Inv) (id off v : Word) : (s.store id off v).Inv :=
  h.of_same_active (Memory.write_wf s.mem id off v h.1) (active_write s.mem id off v) rfl ⟨rfl, rfl, rfl⟩

/-- LOADP with a copy: id 0 was active before (R48). -/
theorem State.Inv.replaceProgram {s : State} (h : s.Inv) {src : Word}
    (hsrc : Memory.active s.mem src = true) : (s.replaceProgram src).Inv := by
  refine h.of_same_active (Memory.replaceZero_wf s.mem src h.1) (fun id => ?_) rfl ⟨rfl, rfl, rfl⟩
  obtain ⟨-, hzero, -⟩ := h
  rw [replaceProgram_mem, active_replaceZero s.mem src id hsrc]
  rcases eq_or_ne id 0 with rfl | hid
  · rw [hzero, Bool.or_true]
  · rw [decide_eq_false hid, Bool.false_or]

/-- IN that takes a byte: the end of the stream has not been met (R60). -/
theorem State.Inv.takeByte {s : State} (h : s.Inv) (hmet : s.inEof = false) : s.takeByte.Inv := by
  obtain ⟨hwf, hzero, hnodup, hrec, -⟩ := h
  exact ⟨hwf, hzero, hnodup, hrec, fun hmet' => absurd (hmet.symm.trans hmet') (by decide)⟩

/-- IN that meets the end, now or again: no byte is left, and none will come (R29, R60). -/
theorem State.Inv.meetEof {s : State} (h : s.Inv) (heof : s.inAnswer = .eof) : s.meetEof.Inv := by
  obtain ⟨hwf, hzero, hnodup, hrec, hmet⟩ := h
  refine ⟨hwf, hzero, hnodup, hrec, fun _ => ?_⟩
  rcases (inAnswer_eof_iff s).1 heof with hbefore | hnow
  · exact hmet hbefore
  · exact hnow

/-- Registers, pc, status and log are no part of the invariant, so an effect keeps it where its change to the
pool or the stream does. -/
theorem Effect.apply_inv {e : Effect} {i : Instr} {s : State} (he : e.ArisesFrom i s) (h : s.Inv) :
    (e.apply s).Inv := by
  cases e with
  | store id off v => exact h.store id off v
  | grant b id n => exact h.allocate id n
  | release id => exact h.release he.2.1 he.2.2
  | takeByte c v => exact h.takeByte ((inAnswer_byte_iff s v).1 he.2).1
  | meetEof c => exact h.meetEof he.2
  | load src target => exact h.replaceProgram he.2.2
  | fail | halt | skip | result | emit | jump => exact h

/-- Settles O43: a failed fetch changes the status alone, and every effect an instruction has keeps the invariant. -/
theorem everyStepKeepsInvariant : Obligations.EveryStepKeepsInvariant := by
  intro s t h hstep
  obtain ⟨-, ⟨-, rfl⟩ | ⟨w, -, hx⟩⟩ := step_next_cases s t hstep
  · exact h
  · obtain ⟨e, he, rfl⟩ := exec_next_effect hx
    exact e.apply_inv he h

/-! ## Reset, launch and outputs (R26, R33) -/

/-- Settles O44, part by part. -/
theorem resetHasInvariant : Obligations.ResetHasInvariant :=
  ⟨reset_memory_wf, rfl, List.nodup_nil, rfl, fun _ => ⟨rfl, rfl⟩⟩

theorem segment?_singleton_zero (g : Segment) (id : Word) :
    Memory.segment? [(0, g)] id = if id = 0 then some g else none := by
  simp only [Memory.segment?, sparseLookup, ← toNat_eq_iff]
  rfl

theorem reg_reset (r : Reg) : State.reset.reg r = 0 := by cases r <;> rfl

/-- Settles O47: the pool lists id 0 alone. -/
theorem resetStateValues : Obligations.ResetStateValues := by
  refine ⟨reg_reset, rfl, rfl, fun id => ?_, rfl, rfl, rfl⟩
  change (Memory.segment? [(0, _)] id).isSome = true ↔ _
  rw [segment?_singleton_zero]
  split_ifs with hid
  · exact ⟨fun _ => hid, fun _ => rfl⟩
  · exact ⟨nofun, fun h => absurd h hid⟩

theorem launchLengthOk_iff (n : Nat) : launchLengthOk n = true ↔ 1 ≤ n ∧ n ≤ 2 ^ 32 - 1 :=
  decide_eq_true_iff

/-- The state a launch gives. -/
def launched (prog : List Word) (input : List Byte) (ended : Bool) : State :=
  { State.reset with mem := [(0, segmentOf prog)], input := input, inputEnded := ended }

theorem launch_eq_some_iff (prog : List Word) (input : List Byte) (ended : Bool) (s : State) :
    State.launch prog input ended = some s ↔
      (1 ≤ prog.length ∧ prog.length ≤ 2 ^ 32 - 1) ∧ launched prog input ended = s := by
  rw [← launchLengthOk_iff, State.launch]
  split_ifs with h <;> simp [h, launched]

theorem segmentOf_len_toNat {words : List Word} (h : words.length ≤ 2 ^ 32 - 1) :
    (segmentOf words).len.toNat = words.length :=
  Nat.mod_eq_of_lt (by omega)

theorem segmentOf_wf {words : List Word} (h : words.length ≤ 2 ^ 32 - 1) :
    (segmentOf words).wf = true := by
  rw [Segment.wf_iff, segmentOf_len_toNat h]
  refine ⟨cellsOf_rising words 0, fun e he => ?_⟩
  obtain ⟨hoff, hword⟩ := cellsOf_mem words 0 e he
  exact ⟨by omega, hword⟩

/-- The segment made of a list reads as the list. -/
theorem segmentOf_read (words : List Word) (off : Word) :
    (segmentOf words).read off = words.getD off.toNat 0 := by
  simpa [Segment.read, segmentOf] using cellsOf_lookup words 0 off.toNat

theorem segment?_launched (prog : List Word) (input : List Byte) (ended : Bool) (id : Word) :
    Memory.segment? (launched prog input ended).mem id = if id = 0 then some (segmentOf prog) else none :=
  segment?_singleton_zero _ _

/-- Settles O45: the cells made of a program rise, lie below its length and hold no word 0. -/
theorem launchHasInvariant : Obligations.LaunchHasInvariant := by
  intro prog input ended s h
  obtain ⟨⟨-, hlen⟩, rfl⟩ := (launch_eq_some_iff prog input ended s).1 h
  refine ⟨(Memory.wf_iff _).2 ⟨rfl, fun e he => ?_⟩, rfl, List.nodup_nil, rfl, nofun⟩
  obtain rfl : e = (0, segmentOf prog) := List.mem_singleton.1 he
  exact ⟨Nat.two_pow_pos 32, segmentOf_wf hlen⟩

/-- Settles O46: the segment made of a program has its length and reads as it does. -/
theorem launchGivesResetStateWithProgram : Obligations.LaunchGivesResetStateWithProgram := by
  intro prog input ended hpos hlen
  have hzero : Memory.segment? (launched prog input ended).mem 0 = some (segmentOf prog) := by
    rw [segment?_launched, if_pos rfl]
  refine ⟨launched prog input ended, (launch_eq_some_iff _ _ _ _).2 ⟨⟨hpos, hlen⟩, rfl⟩, reg_reset,
    rfl, rfl, rfl, rfl, rfl, ⟨(segmentOf prog).len, ?_, segmentOf_len_toNat hlen⟩, fun off hoff => ?_, fun id hid => ?_,
    rfl, rfl, rfl, rfl, rfl⟩
  · rw [Memory.length?, hzero, Option.map_some]
  · have hlt : off < (segmentOf prog).len := BitVec.lt_def.2 (by rwa [segmentOf_len_toNat hlen])
    simp only [Memory.read?, hzero, if_pos hlt, segmentOf_read]
  · rw [Memory.active, segment?_launched, if_neg hid, Option.isSome_none]

/-- Settles O48, by the three statuses and the ten causes. -/
theorem statusOutputsShowRunStatus : Obligations.StatusOutputsShowRunStatus := by
  intro s
  refine ⟨fun h => ?_, fun h => ?_, fun cause info h => ?_⟩
  · simp [State.statusOut, State.causeOut, State.infoOut, h]
  · simp [State.statusOut, State.causeOut, State.infoOut, h]
  · simp only [State.statusOut, State.causeOut, State.infoOut, h, true_and]
    cases cause <;> rfl

end Sys2Proof.Machine
end

section
/-! PROOFS of the statements about the segment pool and the input stream (spec/20_memory.md). Each is told by
what reads the same after a pool operation, and by what the one or two instructions it names do to the pool. -/

namespace Sys2Proof.Machine

/-! ## Reads after a pool operation (R44, R45, R47, R48) -/

/-- A read depends on the pool only through the segment it names. -/
theorem Memory.read?_congr {m m' : Memory} {id id' : Word}
    (h : Memory.segment? m id = Memory.segment? m' id') (off : Word) :
    Memory.read? m id off = Memory.read? m' id' off := by
  simp only [Memory.read?, h]

theorem Memory.read?_of_inactive {m : Memory} {id : Word} (h : Memory.active m id = false) (off : Word) :
    Memory.read? m id off = none := by
  have hnone : Memory.segment? m id = none := by simpa [Memory.active] using h
  simp only [Memory.read?, hnone]

theorem Memory.read?_alloc_of_ne (m : Memory) (n : Word) {id j : Word} (hj : j ≠ id) (off : Word) :
    Memory.read? (Memory.alloc m id n) j off = Memory.read? m j off :=
  Memory.read?_congr (by rw [Memory.segment?_alloc, if_neg hj]) off

theorem Memory.read?_free_of_ne (m : Memory) {id j : Word} (hj : j ≠ id) (off : Word) :
    Memory.read? (Memory.free m id) j off = Memory.read? m j off :=
  Memory.read?_congr (by rw [Memory.segment?_free, if_neg hj]) off

theorem Memory.read?_free_self (m : Memory) (id off : Word) :
    Memory.read? (Memory.free m id) id off = none :=
  Memory.read?_of_inactive (by simp [active_free]) off

/-- Segments share no storage: a write to one, in bounds or not, is not seen in another (R66). -/
theorem Memory.read?_write_of_ne (m : Memory) (off v : Word) {id j : Word} (hj : j ≠ id) (o : Word) :
    Memory.read? (Memory.write m id off v) j o = Memory.read? m j o :=
  Memory.read?_congr (by rw [Memory.segment?_write, if_neg hj]) o

theorem Memory.read?_replaceZero_zero {m : Memory} {src : Word} (hsrc : Memory.active m src = true)
    (off : Word) : Memory.read? (Memory.replaceZero m src) 0 off = Memory.read? m src off := by
  obtain ⟨g, hg⟩ := (Memory.active_iff m src).1 hsrc
  exact Memory.read?_congr (by rw [Memory.segment?_replaceZero m src 0 g hg, if_pos rfl, hg]) off

theorem Memory.read?_replaceZero_of_ne {m : Memory} {src j : Word} (hsrc : Memory.active m src = true)
    (hj : j ≠ 0) (off : Word) :
    Memory.read? (Memory.replaceZero m src) j off = Memory.read? m j off := by
  obtain ⟨g, hg⟩ := (Memory.active_iff m src).1 hsrc
  exact Memory.read?_congr (by rw [Memory.segment?_replaceZero m src j g hg, if_neg hj]) off

theorem read?_store {s : State} {id off : Word} (h : InBounds s id off) (v j o : Word) :
    Memory.read? (s.store id off v).mem j o =
      if j = id ∧ o = off then some v else Memory.read? s.mem j o := by
  obtain ⟨n, hn, hlt⟩ := h
  exact Memory.read?_write s.mem id off v j o n hn (BitVec.lt_def.2 hlt)

/-! ## What AMEND, ALLOC and LOADP do to the pool (R121, R122, R144) -/

theorem exec_amend_of_inBounds {a b : Reg} {s : State} (c : Reg) (h : InBounds s (s.reg a) (s.reg b)) :
    exec (.amend a b c) s = .next (s.store (s.reg a) (s.reg b) (s.reg c)).advance := by
  have hpass : checkAccess s.mem (s.reg a) (s.reg b) = .pass := (checkAccess_pass_iff _ _ _).2 h
  simp only [exec, execAmend, hpass]

/-- An AMEND stores its word where the address is in bounds, and leaves the pool alone where it fails. -/
theorem exec_amend_mem {a b c : Reg} {s t : State} (h : exec (.amend a b c) s = .next t) :
    (InBounds s (s.reg a) (s.reg b) ∧ t.mem = (s.store (s.reg a) (s.reg b) (s.reg c)).mem) ∨
      t.mem = s.mem := by
  simp only [exec, execAmend, Host.Outcome.next.injEq] at h
  subst h
  split
  · exact .inr rfl
  · exact .inr rfl
  · next hpass => exact .inl ⟨(checkAccess_pass_iff _ _ _).1 hpass, rfl⟩

/-- An AMEND is not seen in any segment but the one its id register names. -/
theorem exec_amend_read?_of_ne {a b c : Reg} {s t : State} (h : exec (.amend a b c) s = .next t)
    {j : Word} (hj : j ≠ s.reg a) (off : Word) : Memory.read? t.mem j off = Memory.read? s.mem j off := by
  rcases exec_amend_mem h with ⟨-, hmem⟩ | hmem
  · rw [hmem]; exact Memory.read?_write_of_ne s.mem _ _ hj off
  · rw [hmem]

theorem exec_alloc_mem {b c : Reg} {s t : State} {id : Word} (hid : s.allocGranted = some id)
    (h : exec (.alloc b c) s = .next t) : t.mem = Memory.alloc s.mem id (s.reg c) := by
  simp only [exec, execAlloc, hid, Host.Outcome.next.injEq] at h
  exact h ▸ rfl

/-- A LOADP with x[B] not 0 that leaves the run Running made its copy. -/
theorem exec_loadp_mem {b c : Reg} {s t : State} (hb : s.reg b ≠ 0)
    (h : exec (.loadp b c) s = .next t) (hrun : t.status = .running) :
    Memory.active s.mem (s.reg b) = true ∧ t.mem = Memory.replaceZero s.mem (s.reg b) := by
  simp only [exec, execLoadp, if_neg hb, Host.Outcome.next.injEq] at h
  subst h
  split_ifs at hrun ⊢ with hactive hfails
  · cases hrun
  · exact ⟨hactive, rfl⟩
  · cases hrun

/-! ## Allocations (R45, R66) -/

/-- Only a FREE can end the activity of an id: every other effect keeps all active ids. -/
theorem exec_active_of_not_free {i : Instr} {s t : State} {id : Word} (hi : ∀ c, i ≠ .free c)
    (h : exec i s = .next t) (hid : Memory.active s.mem id = true) : Memory.active t.mem id = true := by
  obtain ⟨e, he, rfl⟩ := exec_next_effect h
  cases e with
  | release j => obtain ⟨⟨c, hc, -⟩, -⟩ := he; exact absurd hc (hi c)
  | grant b j n => simp [Effect.apply, active_alloc, hid]
  | store j off v => simp [Effect.apply, active_write, hid]
  | load src target => simp [Effect.apply, active_replaceZero s.mem src id he.2.2, hid]
  | fail | halt | skip | result | emit | takeByte | meetEof | jump => exact hid

theorem execAll_active_of_no_free {l : List Instr} {s t : State} {id : Word} (hl : ∀ r, .free r ∉ l)
    (h : execAll l s = some t) (hid : Memory.active s.mem id = true) : Memory.active t.mem id = true :=
  execAll_keeps (P := fun u => Memory.active u.mem id = true) (kind := fun i => ∀ c, i ≠ .free c)
    (fun _ _ _ hi hs hx => exec_active_of_not_free hi hx hs) l s t
    (fun _ hmem c hc => hl c (hc ▸ hmem)) hid h

/-- Settles O16: the first id is still active when the second is granted, and a granted id is not active. -/
theorem twoAllocationsDoNotAlias : Obligations.TwoAllocationsDoNotAlias := by
  intro b c b' c' between s t t' u i j hi ht hfree ht' hj hu
  obtain ⟨-, hi0, -⟩ := (allocGranted_eq_some_iff s i).1 hi
  obtain ⟨-, hj0, hjfresh⟩ := (allocGranted_eq_some_iff t' j).1 hj
  have hit : Memory.active t.mem i = true := by simp [exec_alloc_mem hi ht, active_alloc]
  have hit' : Memory.active t'.mem i = true := execAll_active_of_no_free hfree ht' hit
  have hiu : Memory.active u.mem i = true := exec_active_of_not_free (by nofun) hu hit'
  have hju : Memory.active u.mem j = true := by simp [exec_alloc_mem hj hu, active_alloc]
  have hij : i ≠ j := by
    rintro rfl
    simp [hjfresh] at hit'
  exact ⟨hij, hi0, hj0, hiu, hju, fun off v o =>
    ⟨Memory.read?_write_of_ne u.mem off v hij.symm o, Memory.read?_write_of_ne u.mem off v hij o⟩⟩

/-! ## The program as a copy and as memory (R48, R56) -/

/-- Settles O23: the copy reads as its source, and a store goes to the segment it names, which is one of the two. -/
theorem loadedProgramIsIndependentCopy : Obligations.LoadedProgramIsIndependentCopy := by
  intro b c a d e s t u hb ht hrun hu
  obtain ⟨hactive, hmem⟩ := exec_loadp_mem hb ht hrun
  refine ⟨fun off => ?_, fun ha off => ?_, fun ha off => ?_⟩
  · rw [hmem, Memory.read?_replaceZero_zero hactive, Memory.read?_replaceZero_of_ne hactive hb]
  · exact exec_amend_read?_of_ne hu (ha ▸ hb.symm) off
  · exact exec_amend_read?_of_ne hu (ha ▸ hb) off

/-- Settles O34: the store is in bounds, so the AMEND stores and moves pc to the word it stored. -/
theorem storeToNextWordIsFetchedNext : Obligations.StoreToNextWordIsFetchedNext := by
  intro s w a b c hs hf hdecode ha hb hin
  have hexec := exec_amend_of_inBounds (a := a) (b := b) c (by rwa [ha, hb])
  rw [ha, hb] at hexec
  have hfetch : (s.store 0 (s.pc + 1) (s.reg c)).advance.fetch = some (s.reg c) :=
    (read?_store hin (s.reg c) 0 (s.pc + 1)).trans (if_pos ⟨rfl, rfl⟩)
  refine ⟨_, ?_, hfetch, ?_⟩
  · simpa only [step_running s hs, hf, hdecode] using hexec
  · simp only [step_running (s.store 0 (s.pc + 1) (s.reg c)).advance hs, hfetch]

/-! ## Which words change (R44, R48, R66) -/

/-- Settles O39, by the four effects that change the pool: a grant is of an inactive id, a release and a copy leave
every other segment alone, and a store every other word. -/
theorem wordsChangeOnlyByAmendAndLoadp : Obligations.WordsChangeOnlyByAmendAndLoadp := by
  intro i s t id off v w h hv hw hne
  have hchanged : Memory.read? t.mem id off ≠ Memory.read? s.mem id off := by
    rw [hv, hw]
    exact fun e => hne (Option.some.inj e).symm
  obtain ⟨e, he, rfl⟩ := exec_next_effect h
  cases e with
  | grant b j n =>
    obtain ⟨-, -, hj⟩ := (allocGranted_eq_some_iff s j).1 he.2
    have hid : id ≠ j := by
      rintro rfl
      simp [Memory.read?_of_inactive hj] at hv
    exact absurd (Memory.read?_alloc_of_ne s.mem n hid off) hchanged
  | release j =>
    have hid : id ≠ j := by
      rintro rfl
      simp [Effect.apply, Memory.read?_free_self] at hw
    exact absurd (Memory.read?_free_of_ne s.mem hid off) hchanged
  | store j o x =>
    obtain ⟨a, b, c, rfl⟩ := he
    rcases exec_amend_mem h with ⟨hin, hmem⟩ | hmem
    · rw [hmem, read?_store hin] at hw
      split_ifs at hw with haddr
      · exact .inl ⟨a, b, c, rfl, haddr.1.symm, haddr.2.symm, Option.some.inj hw⟩
      · exact absurd (Option.some.inj (hv.symm.trans hw)) hne
    · exact absurd (by rw [hmem]) hchanged
  | load src target =>
    obtain ⟨⟨b, c, rfl, rfl, -⟩, hsrc0, hsrc⟩ := he
    refine .inr ⟨?_, b, c, rfl, hsrc0⟩
    by_contra hid
    exact hchanged (Memory.read?_replaceZero_of_ne hsrc hid off)
  | fail | halt | skip | result | emit | takeByte | meetEof | jump => exact absurd rfl hchanged

/-! ## The wait of IN (R61) -/

theorem exec_inp_of_byte (c : Reg) {s : State} {v : Byte} (h : s.inAnswer = .byte v) :
    exec (.inp c) s = .next (s.takeByte.setReg c (wordOfByte v)).advance := by
  simp only [exec, execInp, h]

theorem exec_inp_of_eof (c : Reg) {s : State} (h : s.inAnswer = .eof) :
    exec (.inp c) s = .next (s.meetEof.setReg c eofWord).advance := by
  simp only [exec, execInp, h]

theorem exec_inp_of_pending (c : Reg) {s : State} (h : s.inAnswer = .pending) :
    exec (.inp c) s = .fault .awaitingInput := by
  simp only [exec, execInp, h]

theorem offerByte_input {s : State} (h : s.inputEnded = false) (v : Byte) :
    (s.offerByte v).input = s.input ++ [v] := by
  simp [State.offerByte, h]

/-- Settles O20, by the three answers `InByte()` can give: none before, the byte offered, the end said. -/
theorem inWaitsUntilHostAnswers : Obligations.InWaitsUntilHostAnswers := by
  intro c s hmet hempty hopen
  refine ⟨exec_inp_of_pending c ((inAnswer_pending_iff s).2 ⟨hmet, hempty, hopen⟩), fun v => ?_, ?_⟩
  · have hmet' : (s.offerByte v).inEof = false := (offerByte_inEof s v).trans hmet
    have hinput : (s.offerByte v).input = [v] := by rw [offerByte_input hopen, hempty, List.nil_append]
    refine ⟨_, exec_inp_of_byte c ((inAnswer_byte_iff _ v).2 ⟨hmet', [], hinput⟩), ?_, ?_, ?_⟩
    · simp [wordOfByte_toNat]
    · simp [hinput]
    · simpa using hmet'
  · refine ⟨_, exec_inp_of_eof c ((inAnswer_eof_iff s.endInput).2 (.inr ⟨hempty, rfl⟩)), ?_, rfl⟩
    simp [eofWord]

end Sys2Proof.Machine
end

section
/-! PROOFS of the statements about the encoding (spec/30_encoding.md). The decoder is said once, as an `↔`
(`decode_eq_iff`): a word decodes to an instruction exactly where its opcode field is the instruction's opcode and
the fields the instruction's row of R76 uses hold its operands. The round trips are what the encoder puts in those
fields, and what is left of a word when every other field is cleared. -/

namespace Sys2Proof.Machine

/-! ## What the decoder reads -/

/-- The fields of the word that the instruction's row of R76 uses hold the instruction's operands. -/
def HoldsOperands (w : Word) : Instr → Prop
  | .cmov a b c | .aidx a b c | .amend a b c | .add a b c | .mul a b c | .div a b c | .nand a b c =>
    fieldA w = a.toBits ∧ fieldB w = b.toBits ∧ fieldC w = c.toBits
  | .alloc b c | .loadp b c => fieldB w = b.toBits ∧ fieldC w = c.toBits
  | .free c | .out c | .inp c => fieldC w = c.toBits
  | .ldi a value => fieldASpecial w = a.toBits ∧ fieldValue w = value
  | .halt | .undef14 | .undef15 => True

theorem holdsOperands_decode (w : Word) : HoldsOperands w (decode w) := by
  have hlt := (opcodeField w).isLt
  unfold decode
  interval_cases (opcodeField w).toNat <;> simp [HoldsOperands, Reg.toBits_ofBits]

theorem decode_of_holdsOperands {w : Word} {i : Instr} (hop : opcodeField w = i.opcode)
    (h : HoldsOperands w i) : decode w = i := by
  cases i with
  | cmov | aidx | amend | add | mul | div | nand =>
    obtain ⟨ha, hb, hc⟩ := h
    simp [decode, hop, Instr.opcode, ha, hb, hc, Reg.ofBits_toBits]
  | alloc | loadp =>
    obtain ⟨hb, hc⟩ := h
    simp [decode, hop, Instr.opcode, hb, hc, Reg.ofBits_toBits]
  | free | out | inp =>
    have hc : fieldC w = _ := h
    simp [decode, hop, Instr.opcode, hc, Reg.ofBits_toBits]
  | ldi =>
    obtain ⟨ha, hv⟩ := h
    simp [decode, hop, Instr.opcode, ha, hv, Reg.ofBits_toBits]
  | halt | undef14 | undef15 => simp [decode, hop, Instr.opcode]

theorem decode_eq_iff (w : Word) (i : Instr) :
    decode w = i ↔ opcodeField w = i.opcode ∧ HoldsOperands w i := by
  constructor
  · rintro rfl
    exact ⟨(opcode_decode w).symm, holdsOperands_decode w⟩
  · rintro ⟨hop, h⟩
    exact decode_of_holdsOperands hop h

/-! ## What the encoder writes (R84) -/

theorem opcodeField_encode (i : Instr) : opcodeField (encode i) = i.opcode := by
  cases i with
  | ldi => exact opcodeField_encodeSpecial _ _
  | _ => exact opcodeField_encodeStandard _ _ _ _

theorem holdsOperands_encode (i : Instr) : HoldsOperands (encode i) i := by
  cases i with
  | cmov | aidx | amend | add | mul | div | nand =>
    exact ⟨fieldA_encodeStandard _ _ _ _, fieldB_encodeStandard _ _ _ _, fieldC_encodeStandard _ _ _ _⟩
  | alloc | loadp => exact ⟨fieldB_encodeStandard _ _ _ _, fieldC_encodeStandard _ _ _ _⟩
  | free | out | inp => exact fieldC_encodeStandard _ _ _ _
  | ldi => exact ⟨fieldASpecial_encodeSpecial _ _, fieldValue_encodeSpecial _ _⟩
  | halt | undef14 | undef15 => trivial

/-- Settles O1: the canonical word holds the instruction's opcode and operands, which is all the decoder reads. -/
theorem decodeEncodeRoundTrip : Obligations.DecodeEncodeRoundTrip := fun i =>
  (decode_eq_iff (encode i) i).2 ⟨opcodeField_encode i, holdsOperands_encode i⟩

/-! ## What is left of a word -/

/-- Masking the fields of a word and putting them together again masks the word itself: by the masks at the fields'
places, by 1 in bits 31..28 and by 0 in bits 27..9. Each row of `usedBits` but LDI's is such a mask. -/
theorem encodeStandard_masked_fields (w : Word) (ma mb mc : BitVec 3) :
    encodeStandard (opcodeField w) (fieldA w &&& ma) (fieldB w &&& mb) (fieldC w &&& mc) =
      w &&& encodeStandard 15 ma mb mc := by
  unfold encodeStandard opcodeField fieldA fieldB fieldC
  ext i hi
  interval_cases i <;> simp

/-- The special format has no reserved bit (R73): a word of opcode 13 is its fields. -/
theorem encodeSpecial_fields {w : Word} (hop : opcodeField w = 13) :
    encodeSpecial (fieldASpecial w) (fieldValue w) = w := by
  have hw : encodeSpecial (fieldASpecial w) (fieldValue w) =
      (opcodeField w).setWidth 32 <<< 28 ||| (fieldASpecial w).setWidth 32 <<< 25 |||
        (fieldValue w).setWidth 32 := by
    rw [hop]
    rfl
  rw [hw]
  unfold opcodeField fieldASpecial fieldValue
  ext i hi
  interval_cases i <;> simp

theorem encode_of_holdsOperands {w : Word} {i : Instr} (hop : opcodeField w = i.opcode)
    (h : HoldsOperands w i) : encode i = w &&& usedBits i.opcode := by
  cases i with
  | cmov | aidx | amend | add | mul | div | nand =>
    obtain ⟨ha, hb, hc⟩ := h
    refine Eq.trans ?_ (encodeStandard_masked_fields w (.allOnes 3) (.allOnes 3) (.allOnes 3))
    simp only [encode, hop, ha, hb, hc, BitVec.and_allOnes]
  | alloc | loadp =>
    obtain ⟨hb, hc⟩ := h
    refine Eq.trans ?_ (encodeStandard_masked_fields w 0 (.allOnes 3) (.allOnes 3))
    simp only [encode, hop, hb, hc, BitVec.ofNat_eq_ofNat, BitVec.and_zero, BitVec.and_allOnes]
  | free | out | inp =>
    have hc : fieldC w = _ := h
    refine Eq.trans ?_ (encodeStandard_masked_fields w 0 0 (.allOnes 3))
    simp only [encode, hop, hc, BitVec.ofNat_eq_ofNat, BitVec.and_zero, BitVec.and_allOnes]
  | halt | undef14 | undef15 =>
    refine Eq.trans ?_ (encodeStandard_masked_fields w 0 0 0)
    simp only [encode, hop, BitVec.ofNat_eq_ofNat, BitVec.and_zero]
  | ldi =>
    obtain ⟨ha, hv⟩ := h
    rw [encode, ← ha, ← hv, encodeSpecial_fields hop]
    exact BitVec.and_allOnes.symm

/-- Settles O2: the word holds the operands of the instruction it decodes to. -/
theorem encodeDecodeClearsIgnoredBits : Obligations.EncodeDecodeClearsIgnoredBits := by
  intro w
  obtain ⟨hop, hfields⟩ := (decode_eq_iff w _).1 rfl
  rw [encode_of_holdsOperands hop hfields, hop]

/-- Settles O3: the opcode of the decoded instruction is the word's opcode field, which is bits 31..28. -/
theorem opcodeFieldAloneSelectsInstruction : Obligations.OpcodeFieldAloneSelectsInstruction := fun w => by
  rw [opcode_decode, opcodeField_toNat]

/-- Settles O4, by running the decoder on the eleven words. -/
theorem testVectorWordsDecode : Obligations.TestVectorWordsDecode := by
  unfold Obligations.TestVectorWordsDecode
  decide

end Sys2Proof.Machine
end

section
/-! PROOFS of the statements about the cycle (spec/40_fetch_execute.md). A step of a running machine is one of two
things, by whether pc is below the length of segment 0: the failure `PcOutOfBounds`, or the instruction fetched. What
the instruction does is its effect, so the rest is said of effects: which instruction has none, and which effects are
failures. -/

namespace Sys2Proof.Machine

/-! ## The two branches of the cycle (R90 to R93) -/

theorem step_of_fetch_eq_some {s : State} {w : Word} (hs : s.status = .running) (hf : s.fetch = some w) :
    step s = exec (decode w) s := by
  simp only [step_running s hs, hf]

theorem step_of_fetch_eq_none {s : State} (hs : s.status = .running) (hf : s.fetch = none) :
    step s = .next (s.raiseFatal .pcOutOfBounds 0 0 s.pc) := by
  simp only [step_running s hs, hf]

/-- Nothing is fetched at or past the length segment 0 has now (R91). -/
theorem fetch_eq_none_of_length_le {s : State} {n : Word} (hn : Memory.length? s.mem 0 = some n)
    (hle : n.toNat ≤ s.pc.toNat) : s.fetch = none := by
  rw [← Option.not_isSome_iff_eq_none, fetch_isSome]
  rintro ⟨m, hm, hlt⟩
  obtain rfl : n = m := Option.some.inj (hn.symm.trans hm)
  omega

/-- Settles O25: what is read at pc is what is fetched. -/
theorem stepRunsDecodedInstruction : Obligations.StepRunsDecodedInstruction := by
  rintro s w i hs hf rfl
  exact step_of_fetch_eq_some hs hf

/-- Settles O26, by the two branches of the cycle. -/
theorem pcCheckedBeforeFetch : Obligations.PcCheckedBeforeFetch := by
  refine ⟨fun s n hs hn hle => ?_, fun s n hs hn hlt => ?_⟩
  · exact step_of_fetch_eq_none hs (fetch_eq_none_of_length_le hn hle)
  · obtain ⟨w, hf⟩ := Option.isSome_iff_exists.1 ((fetch_isSome s).2 ⟨n, hn, hlt⟩)
    exact ⟨w, hf, step_of_fetch_eq_some hs hf⟩

/-! ## Progress (R95) -/

theorem effectOf_eq_none_iff (i : Instr) (s : State) :
    effectOf i s = none ↔ (∃ c, i = .inp c) ∧ s.inAnswer = .pending := by
  cases i with
  | inp c => cases hin : s.inAnswer <;> simp [effectOf, hin]
  | _ => simp [effectOf]

/-- Every instruction has a next state, but for an IN the host has not answered. -/
theorem exec_next_or_awaits (i : Instr) (s : State) :
    (∃ t, exec i s = .next t) ∨
      (exec i s = .fault .awaitingInput ∧ (∃ c, i = .inp c) ∧ s.inAnswer = .pending) := by
  cases he : effectOf i s with
  | some e => exact .inl ⟨_, (exec_next_iff i s _).2 ⟨e, he, rfl⟩⟩
  | none => exact .inr ⟨by rw [exec_eq_effect, he]; rfl, (effectOf_eq_none_iff i s).1 he⟩

/-- Settles O28: the failed pc check has a next state, and so has every instruction but an IN that waits. -/
theorem runningStepAnswersUnlessInputAwaited : Obligations.RunningStepAnswersUnlessInputAwaited := by
  intro s hs
  cases hf : s.fetch with
  | none => exact .inl ⟨_, step_of_fetch_eq_none hs hf⟩
  | some w =>
    rw [step_of_fetch_eq_some hs hf]
    refine (exec_next_or_awaits (decode w) s).imp_right ?_
    rintro ⟨hstop, ⟨c, hc⟩, hpending⟩
    obtain ⟨hmet, hempty, hopen⟩ := (inAnswer_pending_iff s).1 hpending
    exact ⟨hstop, hmet, hempty, hopen, w, c, rfl, hc⟩

/-! ## Failures (R98, R161 to R163) -/

theorem active_of_checkAccess_inactive {m : Memory} {id off : Word} (h : checkAccess m id off = .inactive) :
    Memory.active m id = false := by
  rw [Memory.active_eq_length?, (checkAccess_inactive_iff m id off).1 h, Option.isSome_none]

/-- An effect that fails records its instruction's opcode, and is one of the failures R161 lists for it. -/
theorem effectOf_fail {i : Instr} {s : State} {cause : FatalCause} {op : BitVec 4} {id off : Word}
    (h : effectOf i s = some (.fail cause op id off)) :
    op = i.opcode ∧ cause.raisedBy i s id off := by
  cases i with
  | add | mul | nand | halt | ldi => cases h
  | cmov =>
    simp only [effectOf, Option.some.injEq] at h
    split at h <;> cases h
  | aidx | amend =>
    simp only [effectOf, Option.some.injEq] at h
    split at h
    · next hcheck =>
      cases h
      exact ⟨rfl, active_of_checkAccess_inactive hcheck, by simp⟩
    · next hcheck =>
      cases h
      exact ⟨rfl, (checkAccess_outOfBounds_iff _ _ _).1 hcheck, by simp⟩
    · cases h
  | div a b c =>
    simp only [effectOf, Option.some.injEq] at h
    split_ifs at h with hzero
    cases h
    exact ⟨rfl, ⟨a, b, c, rfl, (divisorIsZero_iff _).1 hzero⟩, rfl, rfl⟩
  | alloc b c =>
    simp only [effectOf, Option.some.injEq] at h
    split at h
    · next hgranted =>
      cases h
      exact ⟨rfl, .inl ⟨b, c, rfl, hgranted, rfl, rfl⟩⟩
    · cases h
  | free c =>
    simp only [effectOf, Option.some.injEq] at h
    split_ifs at h with hzero hactive
    · cases h
      exact ⟨rfl, ⟨c, rfl, hzero⟩, rfl, rfl⟩
    · cases h
      exact ⟨rfl, ⟨c, rfl, rfl⟩, hzero, Bool.eq_false_of_not_eq_true hactive, rfl⟩
  | out c =>
    simp only [effectOf, Option.some.injEq] at h
    split_ifs at h with hrange hfails
    · cases h
      exact ⟨rfl, ⟨c, rfl, rfl⟩, rfl, (byteInRange_iff _).1 hrange, hfails⟩
    · cases h
      exact ⟨rfl, ⟨c, rfl, rfl⟩, rfl, not_le.1 fun hle => hrange ((byteInRange_iff _).2 hle)⟩
  | inp =>
    simp only [effectOf] at h
    split at h <;> cases h
  | loadp b c =>
    simp only [effectOf, Option.some.injEq] at h
    split_ifs at h with hzero hactive hfails
    · cases h
      exact ⟨rfl, .inr ⟨b, c, rfl, rfl, hzero, hactive, hfails, rfl⟩⟩
    · cases h
      exact ⟨rfl, Bool.eq_false_of_not_eq_true hactive, .inr (.inr ⟨b, c, rfl, rfl, hzero, rfl⟩)⟩
  | undef14 => cases h; exact ⟨rfl, .inl rfl, rfl, rfl⟩
  | undef15 => cases h; exact ⟨rfl, .inr rfl, rfl, rfl⟩

/-- From a running machine, only the effect that fails ends in a failure. -/
theorem Effect.eq_fail_of_apply_failed {e : Effect} {s : State} {cause : FatalCause} {info : FatalInfo}
    (hs : s.status = .running) (h : (e.apply s).status = .failed cause info) :
    ∃ op id off, e = .fail cause op id off ∧ info = ⟨op, s.pc, id, off⟩ := by
  cases e with
  | fail cause' op id off => cases h; exact ⟨op, id, off, rfl, rfl⟩
  | halt => cases h
  | _ => exact absurd (hs.symm.trans h) nofun

theorem recordOk_of_fetch_eq_none {s : State} (hf : s.fetch = none) :
    FatalCause.recordOk .pcOutOfBounds ⟨0, s.pc, 0, s.pc⟩ s := by
  simp [FatalCause.recordOk, hf]

theorem recordOk_of_raisedBy {s : State} {w : Word} {cause : FatalCause} {id off : Word}
    (hf : s.fetch = some w) (h : cause.raisedBy (decode w) s id off) :
    cause.recordOk ⟨(decode w).opcode, s.pc, id, off⟩ s := by
  simp [FatalCause.recordOk, hf, h, opcode_decode, opcodeField_toNat]

/-- Settles O30: a step fails by the pc check or by its instruction's effect, and either way takes the failure with
a record of the table. -/
theorem failuresArePreciseAndRecorded : Obligations.FailuresArePreciseAndRecorded := by
  intro s t cause info hstep hfailed
  obtain ⟨hs, ⟨hf, rfl⟩ | ⟨w, hf, hx⟩⟩ := step_next_cases s t hstep
  · cases hfailed
    exact ⟨rfl, recordOk_of_fetch_eq_none hf⟩
  · obtain ⟨e, he, rfl⟩ := (exec_next_iff _ s t).1 hx
    obtain ⟨op, id, off, rfl, rfl⟩ := Effect.eq_fail_of_apply_failed hs hfailed
    obtain ⟨rfl, hraised⟩ := effectOf_fail he
    exact ⟨rfl, recordOk_of_raisedBy hf hraised⟩

end Sys2Proof.Machine
end

section
/-! PROOFS of the statements about the register instructions (spec/41_register_ops.md). Each has two halves. The
encoding: a word is the sum of its fields, so the numbers R72, R73 and R84 speak of are what the decoder reads and
the encoder writes. The meaning: each instruction answers next with one register result and pc one more, whose frame
is said once (`finishWith_frame`); what is left is the value. -/

namespace Sys2Proof.Machine

/-! ## A word and its fields, in numbers (R71 to R73) -/

theorem toBits_toNat (r : Reg) : r.toBits.toNat = regNumber r := by
  cases r <;> rfl

/-- The three bits at `lo` are the register's index exactly where the field there names the register. -/
theorem fieldNames_iff (w : Word) (lo : Nat) (r : Reg) :
    FieldNames w lo r ↔ w.extractLsb' lo 3 = r.toBits := by
  rw [← BitVec.toNat_inj, BitVec.extractLsb'_toNat, Nat.shiftRight_eq_div_pow, toBits_toNat]
  rfl

theorem fieldValue_toNat (w : Word) : (fieldValue w).toNat = w.toNat % 2 ^ 25 :=
  BitVec.extractLsb'_toNat 0 25 w

/-- `decode_of_holdsOperands` with the opcode as a number. -/
theorem decode_of_opcode_toNat {w : Word} {i : Instr} (hop : w.toNat / 2 ^ 28 = i.opcode.toNat)
    (h : HoldsOperands w i) : decode w = i :=
  decode_of_holdsOperands (BitVec.eq_of_toNat_eq ((opcodeField_toNat w).trans hop)) h

/-- The standard format cuts a word into the opcode, the reserved bits 27..9 and three fields. -/
theorem toNat_eq_standardFields (w : Word) :
    w.toNat = (opcodeField w).toNat * 2 ^ 28 + (w.extractLsb' 9 19).toNat * 2 ^ 9 +
      (fieldA w).toNat * 2 ^ 6 + (fieldB w).toNat * 2 ^ 3 + (fieldC w).toNat := by
  simp only [opcodeField_toNat, fieldA, fieldB, fieldC, BitVec.extractLsb'_toNat,
    Nat.shiftRight_eq_div_pow]
  omega

/-- The special format cuts a word into the opcode, a register field and the value. -/
theorem toNat_eq_specialFields (w : Word) :
    w.toNat = (opcodeField w).toNat * 2 ^ 28 + (fieldASpecial w).toNat * 2 ^ 25 +
      (fieldValue w).toNat := by
  simp only [opcodeField_toNat, fieldASpecial, fieldValue_toNat, BitVec.extractLsb'_toNat,
    Nat.shiftRight_eq_div_pow]
  omega

/-! ## The canonical words, in numbers (R84) -/

theorem reserved_encodeStandard (op : BitVec 4) (a b c : BitVec 3) :
    (encodeStandard op a b c).extractLsb' 9 19 = 0 := by
  ext k hk
  simp [encodeStandard_reserved op a b c (9 + k) (by omega) (by omega)]

theorem encodeStandard_toNat (op : BitVec 4) (a b c : BitVec 3) :
    (encodeStandard op a b c).toNat =
      op.toNat * 2 ^ 28 + a.toNat * 2 ^ 6 + b.toNat * 2 ^ 3 + c.toNat := by
  rw [toNat_eq_standardFields, opcodeField_encodeStandard, reserved_encodeStandard,
    fieldA_encodeStandard, fieldB_encodeStandard, fieldC_encodeStandard]
  simp

theorem encodeSpecial_toNat (a : BitVec 3) (value : BitVec 25) :
    (encodeSpecial a value).toNat = 13 * 2 ^ 28 + a.toNat * 2 ^ 25 + value.toNat := by
  rw [toNat_eq_specialFields, opcodeField_encodeSpecial, fieldASpecial_encodeSpecial,
    fieldValue_encodeSpecial]
  rfl

/-- An instruction whose row uses all three fields of the standard format (R76) is encoded by its opcode and them. -/
theorem encodesABC_of_row {op : Nat} {mk : Reg → Reg → Reg → Instr}
    (hop : ∀ a b c, (mk a b c).opcode.toNat = op)
    (hread : ∀ w a b c, HoldsOperands w (mk a b c) ↔
      fieldA w = a.toBits ∧ fieldB w = b.toBits ∧ fieldC w = c.toBits)
    (hwrite : ∀ a b c, encode (mk a b c) = encodeStandard (mk a b c).opcode a.toBits b.toBits c.toBits) :
    EncodesABC op mk := by
  refine ⟨fun w a b c hw ha hb hc => ?_, fun a b c => ?_⟩
  · exact decode_of_opcode_toNat (hw.trans (hop a b c).symm) ((hread w a b c).2
      ⟨(fieldNames_iff w 6 a).1 ha, (fieldNames_iff w 3 b).1 hb, (fieldNames_iff w 0 c).1 hc⟩)
  · rw [hwrite, encodeStandard_toNat, hop, toBits_toNat, toBits_toNat, toBits_toNat]

/-! ## A register result and its frame (R94, R97) -/

theorem finishWith_frame (s : State) (a : Reg) (v : Word) :
    SameRegsBut a s (s.finishWith a v) ∧ (s.finishWith a v).pc = s.pc + 1 ∧
      SameOutsideRegs s (s.finishWith a v) :=
  ⟨fun r hr => by simp [hr], rfl, sameOutsideRegs_setReg s a v⟩

theorem finishWith_reg_self (s : State) (a : Reg) (v : Word) : (s.finishWith a v).reg a = v := by
  simp

theorem advance_frame (s : State) (a : Reg) :
    SameRegsBut a s s.advance ∧ s.advance.pc = s.pc + 1 ∧ SameOutsideRegs s s.advance :=
  ⟨fun _ _ => rfl, rfl, sameOutsideRegs_refl s⟩

/-! ## The instructions with a condition: CMOV and DIV (R100, R103) -/

theorem exec_cmov_of_ne_zero (a b : Reg) {c : Reg} {s : State} (h : s.reg c ≠ 0) :
    exec (.cmov a b c) s = .next (s.finishWith a (s.reg b)) := by
  simp only [exec, execCmov, (conditionHolds_iff _).2 h, if_true]

theorem exec_cmov_of_eq_zero (a b : Reg) {c : Reg} {s : State} (h : s.reg c = 0) :
    exec (.cmov a b c) s = .next s.advance := by
  have hfalse : ¬ conditionHolds (s.reg c) = true := fun hcond => (conditionHolds_iff _).1 hcond h
  simp only [exec, execCmov, if_neg hfalse]

theorem exec_div_of_ne_zero (a b : Reg) {c : Reg} {s : State} (h : s.reg c ≠ 0) :
    exec (.div a b c) s = .next (s.finishWith a (s.reg b / s.reg c)) := by
  have hfalse : ¬ divisorIsZero (s.reg c) = true := fun hzero => h ((divisorIsZero_iff _).1 hzero)
  simp only [exec, execDiv, if_neg hfalse]

theorem exec_div_of_eq_zero (a b : Reg) {c : Reg} {s : State} (h : s.reg c = 0) :
    exec (.div a b c) s = .next (s.raiseFatal .divideByZero 5 0 0) := by
  simp only [exec, execDiv, (divisorIsZero_iff _).2 h, if_true]

/-! ## The statements -/

/-- Settles O5, by whether the condition word is 0. -/
theorem cmovMovesWhenConditionNonzero : Obligations.CmovMovesWhenConditionNonzero := by
  refine ⟨encodesABC_of_row (fun _ _ _ => rfl) (fun _ _ _ _ => Iff.rfl) fun _ _ _ => rfl,
    fun a b c s => ?_⟩
  by_cases h : s.reg c = 0
  · refine ⟨_, exec_cmov_of_eq_zero a b h, ?_, advance_frame s a⟩
    simp [h]
  · refine ⟨_, exec_cmov_of_ne_zero a b h, ?_, finishWith_frame s a _⟩
    have hn : (s.reg c).toNat ≠ 0 := fun hzero => h (BitVec.eq_of_toNat_eq hzero)
    rw [finishWith_reg_self, if_neg hn]

/-- Settles O6: addition of words is modulo 2^32. -/
theorem addIsSumModuloWord : Obligations.AddIsSumModuloWord := by
  refine ⟨encodesABC_of_row (fun _ _ _ => rfl) (fun _ _ _ _ => Iff.rfl) fun _ _ _ => rfl,
    fun a b c s => ⟨s.finishWith a (s.reg b + s.reg c), rfl, ?_, finishWith_frame s a _⟩⟩
  rw [finishWith_reg_self, BitVec.toNat_add]

/-- Settles O7: multiplication of words is modulo 2^32. -/
theorem mulIsProductModuloWord : Obligations.MulIsProductModuloWord := by
  refine ⟨encodesABC_of_row (fun _ _ _ => rfl) (fun _ _ _ _ => Iff.rfl) fun _ _ _ => rfl,
    fun a b c s => ⟨s.finishWith a (s.reg b * s.reg c), rfl, ?_, finishWith_frame s a _⟩⟩
  rw [finishWith_reg_self, BitVec.toNat_mul]

/-- Settles O8, by whether the divisor is 0; the division of words is the unsigned one. -/
theorem divIsUnsignedFloorOrFails : Obligations.DivIsUnsignedFloorOrFails := by
  refine ⟨encodesABC_of_row (fun _ _ _ => rfl) (fun _ _ _ _ => Iff.rfl) fun _ _ _ => rfl,
    fun a b c s h => ⟨_, exec_div_of_ne_zero a b h, ?_, finishWith_frame s a _⟩,
    fun a b c s h => exec_div_of_eq_zero a b h⟩
  rw [finishWith_reg_self, BitVec.toNat_udiv]

/-- Settles O9: the complement is of every bit below 32. -/
theorem nandComplementsEveryBit : Obligations.NandComplementsEveryBit := by
  refine ⟨encodesABC_of_row (fun _ _ _ => rfl) (fun _ _ _ _ => Iff.rfl) fun _ _ _ => rfl,
    fun a b c s => ⟨s.finishWith a (~~~(s.reg b &&& s.reg c)), rfl, fun k hk => ?_,
      finishWith_frame s a _⟩⟩
  rw [finishWith_reg_self, BitVec.getLsbD_not, BitVec.getLsbD_and, decide_eq_true hk, Bool.true_and]

/-- Settles O10: the special format's two fields are the operands, and the immediate keeps its number. -/
theorem ldiZeroExtendsValue : Obligations.LdiZeroExtendsValue := by
  refine ⟨fun w a value hop ha hv => ?_, fun a value => ?_, fun a value s =>
    ⟨s.finishWith a (immediate value), rfl, ?_, finishWith_frame s a _⟩⟩
  · have hreg : fieldASpecial w = a.toBits := (fieldNames_iff w 25 a).1 ha
    have hvalue : fieldValue w = value := BitVec.eq_of_toNat_eq ((fieldValue_toNat w).trans hv)
    exact decode_of_opcode_toNat (i := .ldi a value) hop ⟨hreg, hvalue⟩
  · rw [encode, encodeSpecial_toNat, toBits_toNat]
  · rw [finishWith_reg_self, immediate_toNat]

end Sys2Proof.Machine
end

section
/-! PROOFS of the statements about the segment instructions (spec/42_segment_ops.md). Each instruction is said once,
by an equation per outcome of its checks; a statement is then its encoding, the state that the successful outcome
gives, and the failures. The encodings are the rows of R76 that leave out field A, or A and B. -/

namespace Sys2Proof.Machine

/-! ## Encodings with ignored fields (R76, R78) -/

/-- An instruction whose row leaves out field A is encoded by its opcode and B and C, with 0 in A. -/
theorem encodesBC_of_row {op : Nat} {mk : Reg → Reg → Instr} (hop : ∀ b c, (mk b c).opcode.toNat = op)
    (hread : ∀ w b c, HoldsOperands w (mk b c) ↔ fieldB w = b.toBits ∧ fieldC w = c.toBits)
    (hwrite : ∀ b c, encode (mk b c) = encodeStandard (mk b c).opcode 0 b.toBits c.toBits) :
    EncodesBC op mk := by
  refine ⟨fun w b c hw hb hc => ?_, fun b c => ?_⟩
  · exact decode_of_opcode_toNat (hw.trans (hop b c).symm)
      ((hread w b c).2 ⟨(fieldNames_iff w 3 b).1 hb, (fieldNames_iff w 0 c).1 hc⟩)
  · rw [hwrite, encodeStandard_toNat, hop, toBits_toNat, toBits_toNat]
    simp

/-- An instruction whose row leaves out fields A and B is encoded by its opcode and C, with 0 in both. -/
theorem encodesC_of_row {op : Nat} {mk : Reg → Instr} (hop : ∀ c, (mk c).opcode.toNat = op)
    (hread : ∀ w c, HoldsOperands w (mk c) ↔ fieldC w = c.toBits)
    (hwrite : ∀ c, encode (mk c) = encodeStandard (mk c).opcode 0 0 c.toBits) :
    EncodesC op mk := by
  refine ⟨fun w c hw hc => ?_, fun c => ?_⟩
  · exact decode_of_opcode_toNat (hw.trans (hop c).symm) ((hread w c).2 ((fieldNames_iff w 0 c).1 hc))
  · rw [hwrite, encodeStandard_toNat, hop, toBits_toNat]
    simp

/-! ## The checks before an access (R51, R124) -/

theorem checkAccess_of_inactive {m : Memory} {id : Word} (h : Memory.active m id = false) (off : Word) :
    checkAccess m id off = .inactive :=
  (checkAccess_inactive_iff m id off).2 (Memory.length?_of_inactive h)

theorem checkAccess_of_length_le {m : Memory} {id off n : Word} (hn : Memory.length? m id = some n)
    (hle : n.toNat ≤ off.toNat) : checkAccess m id off = .outOfBounds :=
  (checkAccess_outOfBounds_iff m id off).2 ⟨n, hn, hle⟩

theorem checkAccess_of_lt_length {m : Memory} {id off n : Word} (hn : Memory.length? m id = some n)
    (hlt : off.toNat < n.toNat) : checkAccess m id off = .pass :=
  (checkAccess_pass_iff m id off).2 ⟨n, hn, hlt⟩

/-! ## The load and the store: AIDX and AMEND (R120, R121) -/

theorem exec_aidx_of_inactive (a : Reg) {b : Reg} (c : Reg) {s : State}
    (h : Memory.active s.mem (s.reg b) = false) :
    exec (.aidx a b c) s = .next (s.raiseFatal .inactiveSegment 1 (s.reg b) (s.reg c)) := by
  simp only [exec, execAidx, checkAccess_of_inactive h]

theorem exec_aidx_of_outOfBounds (a : Reg) {b c : Reg} {s : State}
    (h : checkAccess s.mem (s.reg b) (s.reg c) = .outOfBounds) :
    exec (.aidx a b c) s = .next (s.raiseFatal .offsetOutOfBounds 1 (s.reg b) (s.reg c)) := by
  simp only [exec, execAidx, h]

theorem exec_aidx_of_pass (a : Reg) {b c : Reg} {s : State}
    (h : checkAccess s.mem (s.reg b) (s.reg c) = .pass) :
    exec (.aidx a b c) s = .next (s.finishWith a (loadWord s.mem (s.reg b) (s.reg c))) := by
  simp only [exec, execAidx, h, State.finishWith]

theorem exec_amend_of_inactive {a : Reg} (b c : Reg) {s : State}
    (h : Memory.active s.mem (s.reg a) = false) :
    exec (.amend a b c) s = .next (s.raiseFatal .inactiveSegment 2 (s.reg a) (s.reg b)) := by
  simp only [exec, execAmend, checkAccess_of_inactive h]

theorem exec_amend_of_outOfBounds {a b : Reg} (c : Reg) {s : State}
    (h : checkAccess s.mem (s.reg a) (s.reg b) = .outOfBounds) :
    exec (.amend a b c) s = .next (s.raiseFatal .offsetOutOfBounds 2 (s.reg a) (s.reg b)) := by
  simp only [exec, execAmend, h]

/-! ## Allocation and deallocation: ALLOC and FREE (R122, R123) -/

/-- A fresh segment reads 0 at every offset below its length (R45). -/
theorem Memory.read?_alloc_self (m : Memory) (id : Word) {n off : Word} (h : off < n) :
    Memory.read? (Memory.alloc m id n) id off = some 0 := by
  simp only [Memory.read?, Memory.segment?_alloc, if_true, if_pos h, Segment.read_fresh]

theorem exec_alloc_of_granted (b c : Reg) {s : State} {id : Word} (h : s.allocGranted = some id) :
    exec (.alloc b c) s = .next ((s.allocate id (s.reg c)).setReg b id).advance := by
  simp only [exec, execAlloc, h]

theorem exec_alloc_of_not_granted (b c : Reg) {s : State} (h : s.allocGranted = none) :
    exec (.alloc b c) s = .next (s.raiseFatal .hostAllocFail 8 0 (s.reg c)) := by
  simp only [exec, execAlloc, h]

theorem exec_free_of_zero {c : Reg} {s : State} (h : s.reg c = 0) :
    exec (.free c) s = .next (s.raiseFatal .freeZero 9 0 0) := by
  simp only [exec, execFree, if_pos h]

theorem exec_free_of_active {c : Reg} {s : State} (h0 : s.reg c ≠ 0)
    (h : Memory.active s.mem (s.reg c) = true) :
    exec (.free c) s = .next (s.release (s.reg c)).advance := by
  simp only [exec, execFree, if_neg h0, if_pos h]

theorem exec_free_of_inactive {c : Reg} {s : State} (h0 : s.reg c ≠ 0)
    (h : Memory.active s.mem (s.reg c) = false) :
    exec (.free c) s = .next (s.raiseFatal .freeInactive 9 (s.reg c) 0) := by
  simp only [exec, execFree, if_neg h0, h, Bool.false_eq_true, if_false]

/-! ## A freed id (R123, R199) -/

/-- A FREE that leaves the run Running was of a nonzero id, and released it. -/
theorem exec_free_running {c : Reg} {s t : State} (h : exec (.free c) s = .next t)
    (hrun : t.status = .running) :
    s.reg c ≠ 0 ∧ t.mem = Memory.free s.mem (s.reg c) := by
  by_cases h0 : s.reg c = 0
  · rw [exec_free_of_zero h0] at h
    cases h
    cases hrun
  · cases hactive : Memory.active s.mem (s.reg c) with
    | true =>
      rw [exec_free_of_active h0 hactive] at h
      cases h
      exact ⟨h0, rfl⟩
    | false =>
      rw [exec_free_of_inactive h0 hactive] at h
      cases h
      cases hrun

theorem exec_loadp_of_inactive {b : Reg} (c : Reg) {s : State} (h0 : s.reg b ≠ 0)
    (h : Memory.active s.mem (s.reg b) = false) :
    exec (.loadp b c) s = .next (s.raiseFatal .inactiveSegment 12 (s.reg b) 0) := by
  simp only [exec, execLoadp, if_neg h0, h, Bool.false_eq_true, if_false]

/-- Settles O15: the freed id is nonzero and no longer active, which is all the three instructions look at. -/
theorem staleIdFailsAfterFree : Obligations.StaleIdFailsAfterFree := by
  intro c s t h hrun
  obtain ⟨h0, hmem⟩ := exec_free_running h hrun
  have hstale : Memory.active t.mem (s.reg c) = false := by simp [hmem, active_free]
  refine ⟨fun a b d hb => ?_, fun a b d ha => ?_, fun b d hb => ?_⟩
  · rw [← hb] at hstale ⊢
    exact exec_aidx_of_inactive a d hstale
  · rw [← ha] at hstale ⊢
    exact exec_amend_of_inactive b d hstale
  · rw [← hb] at h0 hstale ⊢
    exact exec_loadp_of_inactive d h0 hstale

/-! ## The statements about one instruction -/

/-- Settles O11, by the three answers of the access check; the word loaded is a register result. -/
theorem aidxLoadsWordOrFails : Obligations.AidxLoadsWordOrFails := by
  refine ⟨encodesABC_of_row (fun _ _ _ => rfl) (fun _ _ _ _ => Iff.rfl) fun _ _ _ => rfl,
    fun a b c s n hn hlt => ?_, fun a b c s n hn hle => ?_, fun a b c s h => ?_⟩
  · have hpass := checkAccess_of_lt_length hn hlt
    exact ⟨_, _, exec_aidx_of_pass a hpass, read?_of_pass _ _ _ hpass, finishWith_reg_self s a _,
      finishWith_frame s a _⟩
  · exact exec_aidx_of_outOfBounds a (checkAccess_of_length_le hn hle)
  · exact exec_aidx_of_inactive a c h

/-- Settles O12, by the three answers of the access check; a store in bounds is read back at its address alone. -/
theorem amendStoresWordOrFails : Obligations.AmendStoresWordOrFails := by
  refine ⟨encodesABC_of_row (fun _ _ _ => rfl) (fun _ _ _ _ => Iff.rfl) fun _ _ _ => rfl,
    fun a b c s n hn hlt => ?_, fun a b c s n hn hle => ?_, fun a b c s h => ?_⟩
  · have hin : InBounds s (s.reg a) (s.reg b) := ⟨n, hn, hlt⟩
    have hread := read?_store hin (s.reg c)
    exact ⟨_, exec_amend_of_inBounds c hin, (hread _ _).trans (if_pos ⟨rfl, rfl⟩),
      fun id off hne => (hread id off).trans (if_neg hne), Memory.length?_write s.mem _ _ _,
      fun _ => rfl, rfl, rfl, rfl, ⟨rfl, rfl, rfl⟩, rfl, rfl, rfl, rfl, rfl⟩
  · exact exec_amend_of_outOfBounds c (checkAccess_of_length_le hn hle)
  · exact exec_amend_of_inactive b c h

/-- Settles O13, by whether the pool grants an id; the segment granted is the one `Memory.alloc` inserts. -/
theorem allocGivesFreshZeroSegment : Obligations.AllocGivesFreshZeroSegment := by
  refine ⟨encodesBC_of_row (fun _ _ => rfl) (fun _ _ _ => Iff.rfl) fun _ _ => rfl,
    fun b c s id hid => ?_, fun b c s h => exec_alloc_of_not_granted b c h⟩
  obtain ⟨-, hid0, hfresh⟩ := (allocGranted_eq_some_iff s id).1 hid
  refine ⟨hid0, hfresh, _, exec_alloc_of_granted b c hid, ?_, ?_, fun off hoff => ?_, fun j hj => ?_,
    fun j => ?_, fun r hr => ?_, rfl, rfl, ⟨rfl, rfl, rfl⟩, rfl, rfl, rfl, rfl, rfl⟩
  · simp
  · exact (Memory.length?_alloc s.mem id (s.reg c) id).trans (if_pos rfl)
  · exact Memory.read?_alloc_self s.mem id (BitVec.lt_def.2 hoff)
  · exact (Memory.segment?_alloc s.mem id (s.reg c) j).trans (if_neg hj)
  · simp
  · simp [hr]

/-- Settles O14, by the two checks of FREE: of id 0, and of activity. -/
theorem freeDeactivatesOrFails : Obligations.FreeDeactivatesOrFails := by
  refine ⟨encodesC_of_row (fun _ => rfl) (fun _ _ => Iff.rfl) fun _ => rfl,
    fun c s h0 hactive => ?_, fun c s h => exec_free_of_zero h, fun c s h0 h => exec_free_of_inactive h0 h⟩
  refine ⟨_, exec_free_of_active h0 hactive, ?_, fun j hj => ?_, fun j => ?_,
    fun _ => rfl, rfl, rfl, ⟨rfl, rfl, rfl⟩, rfl, rfl, rfl, rfl, rfl⟩
  · simp [active_free]
  · exact (Memory.segment?_free s.mem (s.reg c) j).trans (if_neg hj)
  · simp

end Sys2Proof.Machine
end

section
/-! PROOFS of the statements about control and I/O (spec/43_control_io.md). Again one equation per outcome of an
instruction's checks (those of IN, and of LOADP from an inactive segment, stand above), and the encodings are rows of
R76 that leave out field A, A and B, or all three. -/

namespace Sys2Proof.Machine

/-! ## Encodings without a field (R76, R78) -/

/-- An instruction whose row uses no field is encoded by its opcode alone, with 0 in every other bit. -/
theorem encodesNone_of_row {op : Nat} {i : Instr} (hop : i.opcode.toNat = op)
    (hread : ∀ w, HoldsOperands w i) (hwrite : encode i = encodeStandard i.opcode 0 0 0) :
    EncodesNone op i := by
  refine ⟨fun w hw => decode_of_opcode_toNat (hw.trans hop.symm) (hread w), ?_⟩
  rw [hwrite, encodeStandard_toNat, hop]
  simp

/-! ## Output: OUT (R141) -/

theorem exec_out_of_taken {c : Reg} {s : State} (hrange : (s.reg c).toNat ≤ 255)
    (h : s.writeFailsNow = false) :
    exec (.out c) s = .next (s.emit (byteOfWord (s.reg c))).advance := by
  simp only [exec, execOut, (byteInRange_iff _).2 hrange, h, Bool.false_eq_true, if_true, if_false]

theorem exec_out_of_writeFails {c : Reg} {s : State} (hrange : (s.reg c).toNat ≤ 255)
    (h : s.writeFailsNow = true) :
    exec (.out c) s = .next (s.raiseFatal .outputWriteFail 10 0 (s.reg c)) := by
  simp only [exec, execOut, (byteInRange_iff _).2 hrange, h, if_true]

theorem exec_out_of_outOfRange {c : Reg} {s : State} (h : 255 < (s.reg c).toNat) :
    exec (.out c) s = .next (s.raiseFatal .outputRange 10 0 (s.reg c)) := by
  have hrange : ¬ byteInRange (s.reg c) = true := fun hin => Nat.not_le.2 h ((byteInRange_iff _).1 hin)
  simp only [exec, execOut, if_neg hrange]

/-! ## Control transfer: LOADP (R144) -/

/-- Segment 0 becomes the source segment itself: its length and all its words (R48). -/
theorem Memory.segment?_replaceZero_zero {m : Memory} {src : Word} (hsrc : Memory.active m src = true) :
    Memory.segment? (Memory.replaceZero m src) 0 = Memory.segment? m src := by
  obtain ⟨g, hg⟩ := (Memory.active_iff m src).1 hsrc
  rw [Memory.segment?_replaceZero m src 0 g hg, if_pos rfl, hg]

theorem Memory.segment?_replaceZero_of_ne {m : Memory} {src j : Word} (hsrc : Memory.active m src = true)
    (hj : j ≠ 0) : Memory.segment? (Memory.replaceZero m src) j = Memory.segment? m j := by
  obtain ⟨g, hg⟩ := (Memory.active_iff m src).1 hsrc
  rw [Memory.segment?_replaceZero m src j g hg, if_neg hj]

theorem exec_loadp_of_zero {b : Reg} (c : Reg) {s : State} (h : s.reg b = 0) :
    exec (.loadp b c) s = .next (s.setPc (s.reg c)) := by
  simp only [exec, execLoadp, if_pos h]

theorem exec_loadp_of_copied {b : Reg} (c : Reg) {s : State} (h0 : s.reg b ≠ 0)
    (hactive : Memory.active s.mem (s.reg b) = true) (h : s.copyFailsNow = false) :
    exec (.loadp b c) s = .next ((s.replaceProgram (s.reg b)).setPc (s.reg c)) := by
  simp only [exec, execLoadp, if_neg h0, if_pos hactive, h, Bool.false_eq_true, if_false]

theorem exec_loadp_of_copyFails {b : Reg} (c : Reg) {s : State} (h0 : s.reg b ≠ 0)
    (hactive : Memory.active s.mem (s.reg b) = true) (h : s.copyFailsNow = true) :
    exec (.loadp b c) s = .next (s.raiseFatal .hostAllocFail 12 (s.reg b) 0) := by
  simp only [exec, execLoadp, if_neg h0, if_pos hactive, if_pos h]

/-! ## The statements -/

/-- Settles O17: `State.halt` sets the status and nothing else. -/
theorem haltEndsRunAndHoldsState : Obligations.HaltEndsRunAndHoldsState :=
  ⟨encodesNone_of_row rfl (fun _ => trivial) rfl, fun _ => rfl⟩

/-- Settles O18, by the two checks of OUT: of the range, then of the host's answer. -/
theorem outEmitsByteOrFails : Obligations.OutEmitsByteOrFails := by
  refine ⟨encodesC_of_row (fun _ => rfl) (fun _ _ => Iff.rfl) fun _ => rfl,
    fun c s hrange htaken => ?_, fun c s hrange h => exec_out_of_writeFails hrange h,
    fun c s h => exec_out_of_outOfRange h⟩
  exact ⟨_, byteOfWord (s.reg c), exec_out_of_taken hrange htaken, rfl, byteOfWord_toNat _ hrange,
    fun _ => rfl, rfl, rfl, ⟨rfl, rfl⟩, ⟨rfl, rfl, rfl⟩, rfl, rfl, rfl, rfl⟩

/-- Settles O19, by the three answers `InByte()` can give. What IN reads is a register result of the state in which
the stream has been touched, so all but the stream has the frame of one (`finishWith_frame`). -/
theorem inGivesByteOrEndOfStream : Obligations.InGivesByteOrEndOfStream := by
  refine ⟨encodesC_of_row (fun _ => rfl) (fun _ _ => Iff.rfl) fun _ => rfl,
    fun c s v rest hmet hinput => ?_, fun c s hend => ?_, fun c s t hmet hempty hopen => ?_⟩
  · have hbyte := exec_inp_of_byte c ((inAnswer_byte_iff s v).2 ⟨hmet, rest, hinput⟩)
    obtain ⟨hregs, hpc, hstatus, hpool, -, hlog, hhost⟩ :=
      finishWith_frame s.takeByte c (wordOfByte v)
    refine ⟨_, hbyte, ?_, ?_, rfl, hmet, hregs, hpc, hstatus, hpool, hlog, hhost⟩
    · simp [wordOfByte_toNat]
    · simp [hinput]
  · have heof := exec_inp_of_eof c ((inAnswer_eof_iff s).2 hend)
    obtain ⟨hregs, hpc, hstatus, hpool, -, hlog, hhost⟩ := finishWith_frame s.meetEof c eofWord
    refine ⟨_, heof, ?_, rfl, rfl, rfl, hregs, hpc, hstatus, hpool, hlog, hhost⟩
    simp [eofWord]
  · rw [exec_inp_of_pending c ((inAnswer_pending_iff s).2 ⟨hmet, hempty, hopen⟩)]
    nofun

/-- Settles O22, by the three checks of LOADP: of id 0, of activity, then of the host's answer. -/
theorem loadpReplacesProgramAndJumps : Obligations.LoadpReplacesProgramAndJumps := by
  refine ⟨encodesBC_of_row (fun _ _ => rfl) (fun _ _ _ => Iff.rfl) fun _ _ => rfl,
    fun b c s h => exec_loadp_of_zero c h, fun b c s h0 hactive hcopied => ?_,
    fun b c s h0 hactive h => exec_loadp_of_copyFails c h0 hactive h,
    fun b c s h0 h => exec_loadp_of_inactive c h0 h⟩
  exact ⟨_, exec_loadp_of_copied c h0 hactive hcopied, Memory.segment?_replaceZero_zero hactive,
    fun j hj => Memory.segment?_replaceZero_of_ne hactive hj, rfl, fun _ => rfl, rfl, rfl,
    ⟨rfl, rfl, rfl⟩, rfl, rfl, rfl, rfl, rfl⟩

/-- Settles O24: both rows use no field, and both instructions raise the failure at once. -/
theorem undefinedOpcodesFail : Obligations.UndefinedOpcodesFail :=
  ⟨encodesNone_of_row rfl (fun _ => trivial) rfl, encodesNone_of_row rfl (fun _ => trivial) rfl,
    fun _ => rfl, fun _ => rfl⟩

end Sys2Proof.Machine
end

section
/-! PROOFS of the statements about exceptions (spec/60_exceptions.md). A step of a running machine fails by the pc
check or by its instruction's effect, so when it is free of failure is first said of the effect: one equivalence per
instruction, between its checks and what R179 asks of program and host. -/

namespace Sys2Proof.Machine

/-! ## Freedom from failure (R161, R179) -/

/-- The effect is a fatal failure. -/
@[simp] def Effect.isFail : Effect → Bool
  | .fail _ _ _ _ => true
  | _ => false

/-- On a running machine the effects that fail are those that end in a failure. -/
theorem Effect.apply_isFailed (e : Effect) {s : State} (hs : s.status = .running) :
    (e.apply s).status.isFailed = e.isFail := by
  cases e with
  | fail | halt => rfl
  | _ => exact congrArg Status.isFailed hs

theorem inBounds_iff_checkAccess_pass (s : State) (id off : Word) :
    InBounds s id off ↔ checkAccess s.mem id off = .pass :=
  (checkAccess_pass_iff s.mem id off).symm

/-- The checks of an instruction let it pass exactly where the program and the host do their part for it. (The
zero tests are split on `0#32`, the form in which `simp` keeps the 0 they compare with.) -/
theorem effectOf_not_fail_iff (i : Instr) (s : State) :
    (∀ e, effectOf i s = some e → e.isFail = false) ↔ programPart i s ∧ hostPart i s := by
  cases i with
  | add | mul | nand | halt | ldi => simp [effectOf, programPart, hostPart]
  | undef14 | undef15 => simp [effectOf, programPart]
  | cmov a b c =>
    cases hcond : conditionHolds (s.reg c) <;>
      simp [effectOf, programPart, hostPart, hcond]
  | aidx a b c =>
    cases hcheck : checkAccess s.mem (s.reg b) (s.reg c) <;>
      simp [effectOf, programPart, hostPart, inBounds_iff_checkAccess_pass, hcheck]
  | amend a b c =>
    cases hcheck : checkAccess s.mem (s.reg a) (s.reg b) <;>
      simp [effectOf, programPart, hostPart, inBounds_iff_checkAccess_pass, hcheck]
  | div a b c =>
    by_cases hzero : s.reg c = 0#32 <;>
      simp [effectOf, programPart, hostPart, divisorIsZero_iff, hzero]
  | alloc b c =>
    cases hgranted : s.allocGranted <;>
      simp [effectOf, programPart, hostPart, hgranted]
  | free c =>
    by_cases hzero : s.reg c = 0#32
    · simp [effectOf, programPart, hzero]
    · cases hactive : Memory.active s.mem (s.reg c) <;>
        simp [effectOf, programPart, hostPart, hzero, hactive]
  | out c =>
    by_cases hrange : (s.reg c).toNat ≤ 255
    · cases hfails : s.writeFailsNow <;>
        simp [effectOf, programPart, hostPart, byteInRange_iff, hrange, hfails]
    · simp [effectOf, programPart, byteInRange_iff, hrange]
  | inp c =>
    cases hanswer : s.inAnswer <;> simp [effectOf, programPart, hostPart, hanswer]
  | loadp b c =>
    by_cases hzero : s.reg b = 0#32
    · simp [effectOf, programPart, hostPart, hzero]
    · cases hactive : Memory.active s.mem (s.reg b) <;> cases hfails : s.copyFailsNow <;>
        simp [effectOf, programPart, hostPart, hzero, hactive, hfails]

/-- The same, said of the instruction's next states; an IN that waits has none, and fails in none. -/
theorem exec_not_failed_iff (i : Instr) {s : State} (hs : s.status = .running) :
    (∀ t, exec i s = .next t → t.status.isFailed = false) ↔ programPart i s ∧ hostPart i s := by
  rw [← effectOf_not_fail_iff]
  constructor
  · intro h e he
    rw [← e.apply_isFailed hs]
    exact h _ ((exec_next_iff i s _).2 ⟨e, he, rfl⟩)
  · intro h t ht
    obtain ⟨e, he, rfl⟩ := (exec_next_iff i s t).1 ht
    rw [e.apply_isFailed hs]
    exact h e he

/-- Settles O31, by the two branches of the cycle: the failed pc check always ends in a failure, and the instruction
fetched fails exactly by its own checks. -/
theorem stepFailsExactlyAsListed : Obligations.StepFailsExactlyAsListed := by
  intro s hs
  cases hf : s.fetch with
  | none => simp [State.stepFailureFree, hf, step_of_fetch_eq_none hs hf, Status.isFailed]
  | some w =>
    rw [step_of_fetch_eq_some hs hf, exec_not_failed_iff (decode w) hs]
    simp [State.stepFailureFree, hf]

/-! ## The end of a run (R164, R172) -/

/-- Settles O27: `step` looks at the status before anything else. -/
theorem endedRunTakesNoStep : Obligations.EndedRunTakesNoStep := by
  refine ⟨fun s hs => ?_, fun s cause info hs => ?_⟩
  · simp only [step, hs]
  · simp only [step, hs]

/-- Settles O49: the result of a failed run is one more than a natural number that nothing here knows (log 15). -/
theorem processResultZeroOnlyOnHalt : Obligations.ProcessResultZeroOnlyOnHalt := by
  intro s
  refine ⟨fun hs => ?_, fun hs => ?_, fun cause info hs => ⟨Config.exitFailLessOne + 1, ?_, Nat.succ_ne_zero _⟩⟩
  · simp only [State.processResult, hs]
  · simp only [State.processResult, hs]
  · simp only [State.processResult, hs]

end Sys2Proof.Machine
end
